-- ==== Sys2Proof/Word.lean ====
section
/-! DEFINITION. The word types of PISS16 (00_scope.md R4, R6) and the numbers of its three named registers. -/

namespace Sys2Proof

/-- A 16-bit value: a register, a memory word, an address, the pc (R4: XLEN and ALEN are 16). -/
abbrev Word := BitVec 16

/-- The unit of addressing (R33). -/
abbrev Byte := BitVec 8

/-- The value of a register field, 0 to 15 (10_state.md R21). -/
abbrev RegNum := BitVec 4

/-- x0, named INT: interrupt flags and mask (R21). -/
abbrev regINT : RegNum := 0#4

/-- x1, named SP: the stack pointer (R21). -/
abbrev regSP : RegNum := 1#4

/-- x2, named IO: the I/O buffer (R21); plain storage in this model (R27, log 19). -/
abbrev regIO : RegNum := 2#4

end Sys2Proof
end

