-- ==== Sys2Proof/Config.lean ====
section
/-! DEFINITION. What is fixed for a machine (00_scope.md R5) and the free values, which the spec leaves
open (00_scope.md R7: `any8`, `any1`). A free value is an opaque constant applied to the counter `draws` of State. -/

namespace Sys2Proof.Config

/-- RESET_PC (R5, R36, R200). DESIGN CHOICE of the spec (D19), log 3: unsafe. -/
def resetPc : Word := 0x0000#16

/-- RESET_IMASK: every interrupt disabled (R5, R36, R200). DESIGN CHOICE of the spec (D19), log 3: unsafe. -/
def resetIMask : Byte := 0x00#8

/-- What an address that memory does not list reads as. The spec gives memory no reset contents (R36).
DESIGN CHOICE, log 1: unsafe for a claim about `State.reset` alone. -/
def unlistedByte : Byte := 0x00#8

/-- `any8` of R24: bits 7 to 0 of the `n`-th draw's read of x0. A free value, log 5. -/
opaque x0LowRead : Nat → Byte

/-- `IFLAGS` (R26): the value the environment presents at draw `n` where State lists no input. A free value, log 4. -/
opaque irqLines : Nat → Byte

/-- `any1` of R112: FO after a logical or shift instruction. A free value, log 6. -/
opaque logicFO : Nat → Bool

/-- `any1` of R112: FC after a logical or shift instruction. A free value, log 6. -/
opaque logicFC : Nat → Bool

end Sys2Proof.Config
end

