-- ==== Sys2Proof/Machine/State.lean ====
section
/-! DEFINITION. The state of a PISS16 core (10_state.md R20), why a step can stop (60_exceptions.md R181), and reset
(10_state.md R36, 70_reset_and_hazards.md R200). -/

namespace Sys2Proof.Machine

/-- The four processor flags (10_state.md R31). They are no part of any register. -/
structure Flags where
  fs : Bool
  fo : Bool
  fc : Bool
  fz : Bool
  deriving DecidableEq, Repr

/-- Memory, 65536 bytes (R33): the bytes that differ from `Config.unlistedByte`, by rising address. -/
abbrev Memory := List Host.Cell

/-- The canonical form: addresses strictly rise and exist, and no entry equals what an unlisted address reads as. -/
abbrev Memory.wf (m : Memory) : Prop :=
  m.Pairwise (fun c d => c.1 < d.1) ∧ ∀ c ∈ m, c.1 < 65536 ∧ c.2 ≠ Config.unlistedByte

/-- Everything the spec gives the machine (R20), the input `IFLAGS`, and the model's own counter of free values. -/
structure State where
  /-- `X[1]` to `X[15]`, x1 first (R21). x0 has no storage here: see `imask` and `irqInputs`. -/
  gpr : Vector Word 15
  /-- `IMASK`, behind x0 bits 7 to 0 (R24, R25). -/
  imask : Byte
  /-- The program counter (R28); it may hold an odd value (R30). -/
  pc : Word
  /-- `FS`, `FO`, `FC`, `FZ` (R31). -/
  flags : Flags
  /-- `mem` (R33). -/
  mem : Memory
  /-- `IFLAGS` (R26): what the environment presents at the coming samples, the next one first. When it is empty a sample
  is the free value `Config.irqLines`. DESIGN CHOICE of form, log 4: safe. -/
  irqInputs : List Byte
  /-- The model's own field: how many free values have been drawn. DESIGN CHOICE, log 5. -/
  draws : Nat
  deriving DecidableEq, Repr

/-- The stops of R181 that are faults. None of them is a trap of the hardware, which defines none (R180): each is where
the source gives a situation no meaning. All are safe: the model stops where the hardware does something unknown. -/
inductive Fault where
  /-- Decode: the core word is in a class of R90. Safe (log 11). -/
  | reservedInstruction (core : Word)
  /-- Fetch: pc is odd (R56). Safe (log 9). -/
  | misalignedFetch (pc : Word)
  /-- LDW, SDW, PUSH, PULL, CALL, RET: the word address is odd (R51). Safe (log 9). -/
  | misalignedData (addr : Word)
  /-- PULL whose destination is x1 (R161). Safe (log 10). -/
  | pullToSP
  /-- The interrupt check before a fetch: the enabled flags that are set (R184). Safe (log 8). -/
  | interruptEntry (bits : Byte)
  deriving DecidableEq, Repr

/-- Why an instruction has no meaning to run. -/
inductive Refusal where
  /-- exec's arm for an instruction without a meaning; no arm uses it. Safe. -/
  | notModelled (mnemonic : String)
  /-- INT: the terminal event of R170, handed to the environment; it is no fault (R181). What INT does on hardware is
  "implementation-dependent". Safe (log 7). -/
  | softwareInterrupt
  deriving DecidableEq, Repr

/-- A core that the environment releases (R200, R201): pc at RESET_PC, the mask at RESET_IMASK, and every other element
at a value that the spec leaves unspecified (R36, R37), here an argument. `mem` is the image the environment loaded. -/
def State.launch (gpr : Vector Word 15) (flags : Flags) (mem : Memory) (irqInputs : List Byte) : State where
  gpr := gpr
  imask := Config.resetIMask
  pc := Config.resetPc
  flags := flags
  mem := mem
  irqInputs := irqInputs
  draws := 0

/-- The machine right after reset with nothing loaded. The zeros of x1 to x15 and of the flags are a DESIGN CHOICE,
log 2: unsafe; the spec gives them no reset value (R36). No memory listed (log 1), no input listed (log 4). -/
def State.reset : State :=
  State.launch (Vector.replicate 15 0x0000#16) ⟨false, false, false, false⟩ [] []

end Sys2Proof.Machine
end

