-- ==== Sys2Proof/Machine/Flags.lean ====
section
/-! DEFINITION. The flag computations of the ALU instructions (40_alu.md R112, R113, R114) and the branch conditions
(42_control_flow.md R148). -/

namespace Sys2Proof.Machine

/-- FS: result bit 15 (R112). -/
def signOf (r : Word) : Bool := r.getLsbD 15

/-- FZ: all result bits 0 (R112). -/
def zeroOf (r : Word) : Bool := r == 0#16

/-- The flags of ADD (R113). FC is bit 16 of the exact 17-bit sum. -/
def flagsAdd (s1 s2 : Word) : Flags where
  fs := signOf (s1 + s2)
  fo := signOf s1 == signOf s2 && signOf (s1 + s2) != signOf s1
  fc := (s1.zeroExtend 17 + s2.zeroExtend 17).getLsbD 16
  fz := zeroOf (s1 + s2)

/-- The flags of SUB (R114). FC is the borrow: DESIGN CHOICE of the spec (D13), log 15. -/
def flagsSub (s1 s2 : Word) : Flags where
  fs := signOf (s1 - s2)
  fo := signOf s1 != signOf s2 && signOf (s1 - s2) != signOf s1
  fc := s1.ult s2
  fz := zeroOf (s1 - s2)

/-- The flags of AND, OR, XOR, NOT, LSR, LSL (R112): FO and FC are `any1`, here the free values of draw `n` (log 6). -/
def flagsLogic (r : Word) (n : Nat) : Flags where
  fs := signOf r
  fo := Config.logicFO n
  fc := Config.logicFC n
  fz := zeroOf r

/-- BRE: FZ = 1 (R142). -/
def condBRE (f : Flags) : Bool := f.fz

/-- BNE: FZ = 0 (R143). -/
def condBNE (f : Flags) : Bool := !f.fz

/-- BGT: FZ = 0 and FS = 0 (R144). -/
def condBGT (f : Flags) : Bool := !f.fz && !f.fs

/-- BLS: FS = 1 (R145). -/
def condBLS (f : Flags) : Bool := f.fs

end Sys2Proof.Machine
end

