-- ==== Sys2Proof/Syntax.lean ====
section
/-! DEFINITION. The instructions of PISS16: one constructor per row of spec/opcode_table.json
(30_encoding.md R96). A constructor holds the operands its row uses; the fields that R91 says are ignored are not operands.
An `x` is field XXXX, a `y` is field YYYY, an `imm` is the immediate word (R81, R84). -/

namespace Sys2Proof

/-- The 38 instruction forms of R96. -/
inductive Instr where
  | movReg (x y : RegNum)
  | movImm (x : RegNum) (imm : Word)
  | addReg (x y : RegNum)
  | addImm (x : RegNum) (imm : Word)
  | subReg (x y : RegNum)
  | subImm (x : RegNum) (imm : Word)
  | andReg (x y : RegNum)
  | andImm (x : RegNum) (imm : Word)
  | orReg (x y : RegNum)
  | orImm (x : RegNum) (imm : Word)
  | xorReg (x y : RegNum)
  | xorImm (x : RegNum) (imm : Word)
  | notReg (x y : RegNum)
  | notImm (x : RegNum) (imm : Word)
  | lsrReg (x : RegNum)
  /-- LSR with i = 1: four bytes long, the immediate word is fetched and ignored (R119). -/
  | lsrImm (x : RegNum)
  | lslReg (x : RegNum)
  /-- LSL with i = 1: four bytes long, the immediate word is fetched and ignored (R120). -/
  | lslImm (x : RegNum)
  | ldwReg (x y : RegNum)
  | ldwImm (x : RegNum) (imm : Word)
  | sdwReg (x y : RegNum)
  | sdwImm (x : RegNum) (imm : Word)
  | jmpReg (x : RegNum)
  | jmpImm (imm : Word)
  | breReg (x : RegNum)
  | breImm (imm : Word)
  | bneReg (x : RegNum)
  | bneImm (imm : Word)
  | bgtReg (x : RegNum)
  | bgtImm (imm : Word)
  | blsReg (x : RegNum)
  | blsImm (imm : Word)
  | callReg (x : RegNum)
  | callImm (imm : Word)
  | ret
  | push (x : RegNum)
  | pull (x : RegNum)
  | int
  deriving DecidableEq, Repr

/-- A row of R96: the pattern and mask of the core word, and how many words the form occupies. -/
structure OpRow where
  pattern : Word
  mask : Word
  words : Nat
  deriving DecidableEq, Repr

/-- The reserved classes of 30_encoding.md R90. -/
inductive ReservedClass where
  /-- OOO = 111. -/
  | rv1
  /-- a = 1 with OOO other than 000. -/
  | rv2
  /-- OOO = 011, a = 0, AAA = 000. -/
  | rv3
  /-- RET with i = 1. -/
  | rv4
  /-- PUSH with i = 1. -/
  | rv5
  /-- PULL with i = 1. -/
  | rv6
  /-- INT with i = 1. -/
  | rv7
  deriving DecidableEq, Repr

/-- What the decoder makes of a core word and the word after it. -/
inductive Decoded where
  | instr (i : Instr)
  | reserved (c : ReservedClass)
  deriving DecidableEq, Repr

/-- What the decoder makes of a list of bytes: an instruction and the bytes after it, or a rejection by name. -/
inductive DecodedBytes where
  | ok (i : Instr) (rest : List Byte)
  /-- The core word is in a class of R90. -/
  | reserved (c : ReservedClass)
  /-- The bytes end inside the instruction. -/
  | truncated
  deriving DecidableEq, Repr

end Sys2Proof
end

