-- ==== Sys2Proof/WellFormed.lean ====
section
/-! DEFINITION. Which words are an instruction of PISS16. Every term of `Instr` is well formed by its types: a register
operand has four bits and an immediate sixteen, and every value of each is legal (10_state.md R21, 30_encoding.md R84).
What can be ill formed is the WORDS of an instruction: a core word in a reserved class (R90), or a number of words that
field i does not announce (R83). These checks are written from R90's match and mask column; the decoder is written from
R93, and that the two agree is a statement. -/

namespace Sys2Proof

/-- The class of R90 that a core word is in, tested in the order that R90 gives. -/
def reservedClass (core : Word) : Option ReservedClass :=
  if core &&& 0xE000#16 = 0xE000#16 then some .rv1
  else if core &&& 0x1000#16 = 0x1000#16 ∧ core &&& 0xE000#16 ≠ 0x0000#16 then some .rv2
  else if core &&& 0xFE00#16 = 0x6000#16 then some .rv3
  else if core &&& 0xFF00#16 = 0x6F00#16 then some .rv4
  else if core &&& 0xF100#16 = 0x8100#16 then some .rv5
  else if core &&& 0xF100#16 = 0xA100#16 then some .rv6
  else if core &&& 0xF100#16 = 0xC100#16 then some .rv7
  else none

/-- R83: bit 8 of the core word alone says that an immediate word follows. -/
def announcesImmediate (core : Word) : Bool := core.getLsbD 8

/-- The words of exactly one instruction: the length that field i announces (R83) and no reserved core word (R90). -/
def wordsWellFormed : List Word → Bool
  | [core] => !announcesImmediate core && (reservedClass core).isNone
  | [core, _] => announcesImmediate core && (reservedClass core).isNone
  | _ => false

end Sys2Proof
end

