-- ==== Sys2Proof/Decode.lean ====
section
/-! DEFINITION. Decoding (30_encoding.md R93), total on any words and on any bytes, rejecting by name; then the table of
R96 and the encoder (R81, R96), with zeros in the ignored fields (R91, log 17). -/

namespace Sys2Proof

/-! ### Bytes of a word: little-endian (20_memory.md R50). DESIGN CHOICE of the spec (D2), log 12. -/

/-- Bits 7 to 0: the byte at the lower address (R50). -/
def loByte (w : Word) : Byte := w.extractLsb' 0 8

/-- Bits 15 to 8: the byte at the higher address (R50). -/
def hiByte (w : Word) : Byte := w.extractLsb' 8 8

/-- The word whose low byte is `lo` and whose high byte is `hi` (R50, R53). -/
def wordOfBytes (lo hi : Byte) : Word := hi ++ lo

/-! ### The fields of a core word (R81) -/

/-- OOO, bits 15 to 13. -/
def fieldOOO (core : Word) : BitVec 3 := core.extractLsb' 13 3

/-- a, bit 12. -/
def fieldA (core : Word) : Bool := core.getLsbD 12

/-- AAA, bits 11 to 9. -/
def fieldAAA (core : Word) : BitVec 3 := core.extractLsb' 9 3

/-- i, bit 8. -/
def fieldI (core : Word) : Bool := core.getLsbD 8

/-- XXXX, bits 7 to 4. -/
def fieldX (core : Word) : RegNum := core.extractLsb' 4 4

/-- YYYY, bits 3 to 0. -/
def fieldY (core : Word) : RegNum := core.extractLsb' 0 4

/-! ### Decoding (R93) -/

/-- OOO = 000 and a = 1: the ALU map of R87. -/
def decodeAlu (aaa : BitVec 3) (i : Bool) (x y : RegNum) (imm : Word) : Instr :=
  if aaa = 0b000#3 then (if i then .addImm x imm else .addReg x y)
  else if aaa = 0b001#3 then (if i then .subImm x imm else .subReg x y)
  else if aaa = 0b010#3 then (if i then .andImm x imm else .andReg x y)
  else if aaa = 0b011#3 then (if i then .orImm x imm else .orReg x y)
  else if aaa = 0b100#3 then (if i then .xorImm x imm else .xorReg x y)
  else if aaa = 0b101#3 then (if i then .notImm x imm else .notReg x y)
  else if aaa = 0b110#3 then (if i then .lsrImm x else .lsrReg x)
  else (if i then .lslImm x else .lslReg x)

/-- OOO = 011 and a = 0: the control-flow map of R88. -/
def decodeControl (aaa : BitVec 3) (i : Bool) (x : RegNum) (imm : Word) : Decoded :=
  if aaa = 0b000#3 then .reserved .rv3
  else if aaa = 0b001#3 then .instr (if i then .jmpImm imm else .jmpReg x)
  else if aaa = 0b010#3 then .instr (if i then .breImm imm else .breReg x)
  else if aaa = 0b011#3 then .instr (if i then .bneImm imm else .bneReg x)
  else if aaa = 0b100#3 then .instr (if i then .bgtImm imm else .bgtReg x)
  else if aaa = 0b101#3 then .instr (if i then .blsImm imm else .blsReg x)
  else if aaa = 0b110#3 then .instr (if i then .callImm imm else .callReg x)
  else if i then .reserved .rv4 else .instr .ret

/-- R93: the decoder on a core word and the word that follows it. The second word is looked at only where field i is 1.
R93's fields of the core word are read once, here. -/
def decode (core imm : Word) : Decoded :=
  let i := fieldI core
  let x := fieldX core
  let y := fieldY core
  if fieldOOO core = 0b111#3 then .reserved .rv1
  else if fieldOOO core ≠ 0b000#3 ∧ fieldA core = true then .reserved .rv2
  else if fieldOOO core = 0b000#3 then
    (if fieldA core then .instr (decodeAlu (fieldAAA core) i x y imm)
      else .instr (if i then .movImm x imm else .movReg x y))
  else if fieldOOO core = 0b001#3 then .instr (if i then .ldwImm x imm else .ldwReg x y)
  else if fieldOOO core = 0b010#3 then .instr (if i then .sdwImm x imm else .sdwReg x y)
  else if fieldOOO core = 0b011#3 then decodeControl (fieldAAA core) i x imm
  else if fieldOOO core = 0b100#3 then (if i then .reserved .rv5 else .instr (.push x))
  else if fieldOOO core = 0b101#3 then (if i then .reserved .rv6 else .instr (.pull x))
  else (if i then .reserved .rv7 else .instr .int)

/-- The word that the next two bytes are, or 0 where there are not two. -/
def nextWord : List Byte → Word
  | lo :: hi :: _ => wordOfBytes lo hi
  | _ => 0#16

/-- Decoding of a list of bytes in memory order: the core word first, at the lower address (R84, log 12). A reserved core
word is refused whatever follows it (R83: its length does not matter). -/
def decodeBytes : List Byte → DecodedBytes
  | b0 :: b1 :: rest =>
    match decode (wordOfBytes b0 b1) (nextWord rest) with
    | .reserved c => .reserved c
    | .instr i =>
      if fieldI (wordOfBytes b0 b1) then
        match rest with
        | _ :: _ :: rest' => .ok i rest'
        | _ => .truncated
      else .ok i rest
  | _ => .truncated

/-- The instruction of a table word (opcode_table.json's numbering of bits), as the host reads it: the bits above
`nbits` are 0, and the bytes are laid out in memory order. -/
def decodeTableWord (nbits w : Nat) : Option Instr :=
  let v := w % 2 ^ nbits
  match decodeBytes [BitVec.ofNat 8 v, BitVec.ofNat 8 (v / 256), BitVec.ofNat 8 (v / 65536),
      BitVec.ofNat 8 (v / 16777216)] with
  | .ok i _ => some i
  | _ => none

/-! ### The table of R96 and the encoder -/

/-- The row of R96 that an instruction form is: pattern, mask, number of words (2 for format C32). -/
def Instr.row : Instr → OpRow
  | .movReg _ _ => ⟨0x0000#16, 0xF100#16, 1⟩
  | .movImm _ _ => ⟨0x0100#16, 0xF100#16, 2⟩
  | .addReg _ _ => ⟨0x1000#16, 0xFF00#16, 1⟩
  | .addImm _ _ => ⟨0x1100#16, 0xFF00#16, 2⟩
  | .subReg _ _ => ⟨0x1200#16, 0xFF00#16, 1⟩
  | .subImm _ _ => ⟨0x1300#16, 0xFF00#16, 2⟩
  | .andReg _ _ => ⟨0x1400#16, 0xFF00#16, 1⟩
  | .andImm _ _ => ⟨0x1500#16, 0xFF00#16, 2⟩
  | .orReg _ _ => ⟨0x1600#16, 0xFF00#16, 1⟩
  | .orImm _ _ => ⟨0x1700#16, 0xFF00#16, 2⟩
  | .xorReg _ _ => ⟨0x1800#16, 0xFF00#16, 1⟩
  | .xorImm _ _ => ⟨0x1900#16, 0xFF00#16, 2⟩
  | .notReg _ _ => ⟨0x1A00#16, 0xFF00#16, 1⟩
  | .notImm _ _ => ⟨0x1B00#16, 0xFF00#16, 2⟩
  | .lsrReg _ => ⟨0x1C00#16, 0xFF00#16, 1⟩
  | .lsrImm _ => ⟨0x1D00#16, 0xFF00#16, 2⟩
  | .lslReg _ => ⟨0x1E00#16, 0xFF00#16, 1⟩
  | .lslImm _ => ⟨0x1F00#16, 0xFF00#16, 2⟩
  | .ldwReg _ _ => ⟨0x2000#16, 0xF100#16, 1⟩
  | .ldwImm _ _ => ⟨0x2100#16, 0xF100#16, 2⟩
  | .sdwReg _ _ => ⟨0x4000#16, 0xF100#16, 1⟩
  | .sdwImm _ _ => ⟨0x4100#16, 0xF100#16, 2⟩
  | .jmpReg _ => ⟨0x6200#16, 0xFF00#16, 1⟩
  | .jmpImm _ => ⟨0x6300#16, 0xFF00#16, 2⟩
  | .breReg _ => ⟨0x6400#16, 0xFF00#16, 1⟩
  | .breImm _ => ⟨0x6500#16, 0xFF00#16, 2⟩
  | .bneReg _ => ⟨0x6600#16, 0xFF00#16, 1⟩
  | .bneImm _ => ⟨0x6700#16, 0xFF00#16, 2⟩
  | .bgtReg _ => ⟨0x6800#16, 0xFF00#16, 1⟩
  | .bgtImm _ => ⟨0x6900#16, 0xFF00#16, 2⟩
  | .blsReg _ => ⟨0x6A00#16, 0xFF00#16, 1⟩
  | .blsImm _ => ⟨0x6B00#16, 0xFF00#16, 2⟩
  | .callReg _ => ⟨0x6C00#16, 0xFF00#16, 1⟩
  | .callImm _ => ⟨0x6D00#16, 0xFF00#16, 2⟩
  | .ret => ⟨0x6E00#16, 0xFF00#16, 1⟩
  | .push _ => ⟨0x8000#16, 0xF100#16, 1⟩
  | .pull _ => ⟨0xA000#16, 0xF100#16, 1⟩
  | .int => ⟨0xC000#16, 0xF100#16, 1⟩

/-- One instruction of each of the 38 forms, in R96's order, with zero operands. -/
def oneOfEachForm : List Instr :=
  [.movReg 0 0, .movImm 0 0] ++
  [.addReg 0 0, .addImm 0 0, .subReg 0 0, .subImm 0 0, .andReg 0 0, .andImm 0 0, .orReg 0 0, .orImm 0 0] ++
  [.xorReg 0 0, .xorImm 0 0, .notReg 0 0, .notImm 0 0, .lsrReg 0, .lsrImm 0, .lslReg 0, .lslImm 0] ++
  [.ldwReg 0 0, .ldwImm 0 0, .sdwReg 0 0, .sdwImm 0 0] ++
  [.jmpReg 0, .jmpImm 0, .breReg 0, .breImm 0, .bneReg 0, .bneImm 0, .bgtReg 0, .bgtImm 0] ++
  [.blsReg 0, .blsImm 0, .callReg 0, .callImm 0, .ret] ++
  [.push 0, .pull 0, .int]

/-- The whole table of R96, 38 rows. -/
def opcodeTable : List OpRow := oneOfEachForm.map Instr.row

/-- A core word selects a row when the bits under the mask are the pattern (R96). -/
def OpRow.selects (r : OpRow) (core : Word) : Bool := core &&& r.mask == r.pattern

/-- A core word from its high byte (OOO, a, AAA, i) and its two register fields (R81). -/
def coreWord (high : Byte) (x y : RegNum) : Word := high ++ x ++ y

/-- The words of an instruction, from R81 and R96: the core word, whose high byte holds OOO, a, AAA and i, then the
immediate word where the form has one. The ignored fields, and the ignored immediate of LSR and LSL with i = 1, are zeros
(R91). -/
def encode : Instr → List Word
  | .movReg x y => [coreWord 0x00#8 x y]
  | .movImm x imm => [coreWord 0x01#8 x 0#4, imm]
  | .addReg x y => [coreWord 0x10#8 x y]
  | .addImm x imm => [coreWord 0x11#8 x 0#4, imm]
  | .subReg x y => [coreWord 0x12#8 x y]
  | .subImm x imm => [coreWord 0x13#8 x 0#4, imm]
  | .andReg x y => [coreWord 0x14#8 x y]
  | .andImm x imm => [coreWord 0x15#8 x 0#4, imm]
  | .orReg x y => [coreWord 0x16#8 x y]
  | .orImm x imm => [coreWord 0x17#8 x 0#4, imm]
  | .xorReg x y => [coreWord 0x18#8 x y]
  | .xorImm x imm => [coreWord 0x19#8 x 0#4, imm]
  | .notReg x y => [coreWord 0x1A#8 x y]
  | .notImm x imm => [coreWord 0x1B#8 x 0#4, imm]
  | .lsrReg x => [coreWord 0x1C#8 x 0#4]
  | .lsrImm x => [coreWord 0x1D#8 x 0#4, 0#16]
  | .lslReg x => [coreWord 0x1E#8 x 0#4]
  | .lslImm x => [coreWord 0x1F#8 x 0#4, 0#16]
  | .ldwReg x y => [coreWord 0x20#8 x y]
  | .ldwImm x imm => [coreWord 0x21#8 x 0#4, imm]
  | .sdwReg x y => [coreWord 0x40#8 x y]
  | .sdwImm x imm => [coreWord 0x41#8 x 0#4, imm]
  | .jmpReg x => [coreWord 0x62#8 x 0#4]
  | .jmpImm imm => [coreWord 0x63#8 0#4 0#4, imm]
  | .breReg x => [coreWord 0x64#8 x 0#4]
  | .breImm imm => [coreWord 0x65#8 0#4 0#4, imm]
  | .bneReg x => [coreWord 0x66#8 x 0#4]
  | .bneImm imm => [coreWord 0x67#8 0#4 0#4, imm]
  | .bgtReg x => [coreWord 0x68#8 x 0#4]
  | .bgtImm imm => [coreWord 0x69#8 0#4 0#4, imm]
  | .blsReg x => [coreWord 0x6A#8 x 0#4]
  | .blsImm imm => [coreWord 0x6B#8 0#4 0#4, imm]
  | .callReg x => [coreWord 0x6C#8 x 0#4]
  | .callImm imm => [coreWord 0x6D#8 0#4 0#4, imm]
  | .ret => [coreWord 0x6E#8 0#4 0#4]
  | .push x => [coreWord 0x80#8 x 0#4]
  | .pull x => [coreWord 0xA0#8 x 0#4]
  | .int => [coreWord 0xC0#8 0#4 0#4]

/-- The bytes of a list of words in memory order (R50). -/
def bytesOfWords : List Word → List Byte
  | [] => []
  | w :: ws => loByte w :: hiByte w :: bytesOfWords ws

/-- The bytes of an instruction in memory order. -/
def encodeBytes (i : Instr) : List Byte := bytesOfWords (encode i)

/-- The length of an instruction in bytes, 2 + 2*i (10_state.md R29), from its row. -/
def Instr.lengthBytes (i : Instr) : Nat := 2 * i.row.words

end Sys2Proof
end

