-- ==== Sys2Proof/Machine/Ops.lean ====
section
/-! DEFINITION. The named operations over memory, registers and the environment's input: the accessors of
10_state.md R22 to R25, memory access (20_memory.md R53, R54), fetch (R55), the stack (43_stack.md R162), the interrupt
check (60_exceptions.md R184) and raising a stop (R181). PISS16 defines no exception entry and no return from one
(R180, R186, R187), so raising a stop is all there is to share. -/

namespace Sys2Proof.Machine

/-! ### Raising a stop -/

/-- `raise` (00_scope.md R7, 60_exceptions.md R181): an instruction whose operations raised a stop ends in that fault with
no state change; otherwise its writes take effect together (R193). Every fault of an instruction passes here. -/
def settle : Except Fault State → Host.Outcome State Fault Refusal
  | .error f => .fault f
  | .ok t => .next t

/-! ### Memory, byte by byte -/

/-- The byte at an address. -/
def Memory.read : Memory → Nat → Byte
  | [], _ => Config.unlistedByte
  | (b, v) :: m, a => if b = a then v else Memory.read m a

/-- A cell put before the first one of a higher address. -/
def Memory.insertCell (c : Host.Cell) : Memory → Memory
  | [] => [c]
  | d :: m => if c.1 < d.1 then c :: d :: m else d :: Memory.insertCell c m

/-- One byte written: the old entry goes, and a new one comes unless it equals what an unlisted address reads as. -/
def Memory.write (m : Memory) (a : Nat) (v : Byte) : Memory :=
  let rest := m.filter (fun c => c.1 != a)
  if v = Config.unlistedByte then rest else Memory.insertCell (a, v) rest

/-- R53: `mem[addr + 1] ‖ mem[addr]`. -/
def Memory.readWord (m : Memory) (addr : Word) : Word :=
  wordOfBytes (Memory.read m addr.toNat) (Memory.read m (addr + 1#16).toNat)

/-- R54: bits 7 to 0 at `addr`, bits 15 to 8 at `addr + 1`. -/
def Memory.writeWord (m : Memory) (addr v : Word) : Memory :=
  Memory.write (Memory.write m addr.toNat (loByte v)) (addr + 1#16).toNat (hiByte v)

/-! ### Single updates of State -/

/-- `pc <- target` (R28). -/
def State.setPc (s : State) (target : Word) : State := { s with pc := target }

/-- All four flags written (R112). -/
def State.setFlags (s : State) (f : Flags) : State := { s with flags := f }

/-- Memory replaced. -/
def State.setMem (s : State) (m : Memory) : State := { s with mem := m }

/-- `IMASK` replaced (R25). -/
def State.setIMask (s : State) (m : Byte) : State := { s with imask := m }

/-- The storage of x1 to x15 replaced (R23). -/
def State.setGpr (s : State) (g : Vector Word 15) : State := { s with gpr := g }

/-- One free value has been drawn (log 5). -/
def State.drawn (s : State) : State := { s with draws := s.draws + 1 }

/-- One sample of `IFLAGS` has been taken: the environment may present another value at the next (R26, log 4). -/
def State.sampled (s : State) : State := { s with irqInputs := s.irqInputs.tail, draws := s.draws + 1 }

/-! ### Registers -/

/-- `IFLAGS` at the coming sample (R26): the environment's value, or a free one where State lists none. -/
def State.iflags (s : State) : Byte :=
  match s.irqInputs with
  | f :: _ => f
  | [] => Config.irqLines s.draws

/-- The place of x1 to x15 in `gpr`. -/
def gprIndex (n : RegNum) : Fin 15 := ⟨n.toNat - 1, by have := n.isLt; omega⟩

/-- The value of `x[n]`: `X[n]` for x1 to x15 (R22), `IFLAGS ‖ any8` for x0 (R24). -/
def State.regValue (s : State) (n : RegNum) : Word :=
  if n = regINT then s.iflags ++ Config.x0LowRead s.draws else s.gpr[(gprIndex n).val]'(gprIndex n).isLt

/-- The state after a read of `x[n]`: a read of x1 to x15 has no side effect (R22); a read of x0 has taken a sample of
`IFLAGS` and drawn its `any8` (R24, R26), and changes nothing else. -/
def State.afterRead (s : State) (n : RegNum) : State :=
  if n = regINT then s.sampled else s

/-- `x[n] <- v`: R23 for x1 to x15; for x0 only bits 7 to 0 reach `IMASK` and the rest is discarded (R25). -/
def State.writeReg (s : State) (n : RegNum) (v : Word) : State :=
  if n = regINT then s.setIMask (loByte v)
  else s.setGpr (s.gpr.set (gprIndex n) v (gprIndex n).isLt)

/-! ### Word access to memory -/

/-- R51: a word address is aligned when it is even. -/
def isOdd (addr : Word) : Bool := addr.getLsbD 0

/-- `MemRead(addr, 2)` (R53). -/
def memRead (s : State) (addr : Word) : Except Fault Word :=
  if isOdd addr then .error (.misalignedData addr) else .ok (s.mem.readWord addr)

/-- `MemWrite(addr, 2, v)` (R54). -/
def memWrite (s : State) (addr v : Word) : Except Fault State :=
  if isOdd addr then .error (.misalignedData addr) else .ok (s.setMem (s.mem.writeWord addr v))

/-! ### The stack (R162): SP points at the free slot. DESIGN CHOICE of the spec (D1, D6), log 13. -/

/-- The distance of two slots, WSTEP (R5). -/
def slot : Word := 2#16

/-- `StackPush(v)`: stored at SP, then SP goes down one slot. -/
def stackPush (s : State) (v : Word) : Except Fault State :=
  match memWrite s (s.regValue regSP) v with
  | .error f => .error f
  | .ok t => .ok (t.writeReg regSP (s.regValue regSP - slot))

/-- The address that StackPull loads from: one slot above SP. -/
def pullAddr (s : State) : Word := s.regValue regSP + slot

/-- `StackPull()`: SP goes up one slot, then the word at SP is loaded. -/
def stackPull (s : State) : Except Fault (Word × State) :=
  match memRead s (pullAddr s) with
  | .error f => .error f
  | .ok v => .ok (v, s.writeReg regSP (pullAddr s))

/-! ### Between instructions: the interrupt check and the fetch -/

/-- `IFLAGS & IMASK` (R184). With a zero mask the check never fires, whatever the flags are. -/
def enabledFlags (s : State) : Byte :=
  if s.imask = 0#8 then 0#8 else s.iflags &&& s.imask

/-- R184: stop if an enabled flag is set; the check takes a sample of `IFLAGS`. -/
def interruptCheck (s : State) : Except Fault State :=
  if enabledFlags s = 0#8 then .ok s.sampled else .error (.interruptEntry (enabledFlags s))

/-- R55, R56: the core word at pc and, where its field i is 1, the immediate word at pc + 2. The second word is not
looked at otherwise and is then given as 0. -/
def fetch (s : State) : Except Fault (Word × Word) :=
  if isOdd s.pc then .error (.misalignedFetch s.pc)
  else
    let core := s.mem.readWord s.pc
    .ok (core, if fieldI core then s.mem.readWord (s.pc + 2#16) else 0#16)

/-- R193, stages 2 and 3: fetch, then decode; a reserved core word stops (R90). -/
def fetchDecode (s : State) : Except Fault Instr :=
  match fetch s with
  | .error f => .error f
  | .ok (core, imm) =>
    match decode core imm with
    | .reserved _ => .error (.reservedInstruction core)
    | .instr i => .ok i

end Sys2Proof.Machine
end

