-- ==== Sys2Proof/Machine/Operands.lean ====
section
/-! DEFINITION. The operand that the immediate may replace (30_encoding.md R85): source 2 of an ALU instruction, MOV's
source, the address of LDW and SDW, the target of a control transfer. -/

namespace Sys2Proof.Machine

/-- A register operand (i = 0) or the immediate word (i = 1). -/
inductive Operand where
  | reg (n : RegNum)
  | imm (v : Word)
  deriving DecidableEq, Repr

/-- The operand's 16 bits, used whole (R84). -/
def Operand.value (s : State) : Operand → Word
  | .reg n => s.regValue n
  | .imm v => v

/-- The state after the operand is read. -/
def Operand.after (s : State) : Operand → State
  | .reg n => s.afterRead n
  | .imm _ => s

/-- `len` (R29): 2 with a register operand, 4 with an immediate. -/
def Operand.len : Operand → Word
  | .reg _ => 2#16
  | .imm _ => 4#16

/-- `npc` (R29, R7): the address of the next sequential instruction; it wraps (log 14). -/
def npc (s : State) (len : Word) : Word := s.pc + len

end Sys2Proof.Machine
end

