-- ==== Sys2Proof/Machine/Alu.lean ====
section
/-! DEFINITION. The ALU instructions ADD, SUB, AND, OR, XOR, NOT, LSR, LSL (40_alu.md R110 to R121). Source 1 is read
before source 2, and both before anything is written (R110, log 22). None raises a stop. -/

namespace Sys2Proof.Machine

/-- The end of every ALU instruction (R110): the result to rX, the flags, the pc. -/
def aluFinish (s : State) (x : RegNum) (r : Word) (f : Flags) (len : Word) : Host.Outcome State Fault Refusal :=
  .next (((s.writeReg x r).setFlags f).setPc (npc s len))

/-- ADD and SUB: `x[X] <- f s1 s2`, all four flags from the operands (R113, R114). -/
def aluArith (f : Word → Word → Word) (flags : Word → Word → Flags) (x : RegNum) (src : Operand) (s : State) :
    Host.Outcome State Fault Refusal :=
  let s1 := s.regValue x
  let sA := s.afterRead x
  let s2 := src.value sA
  aluFinish (src.after sA) x (f s1 s2) (flags s1 s2) src.len

/-- The end of a logical or shift instruction: FO and FC are drawn (R112). -/
def logicFinish (s : State) (x : RegNum) (r : Word) (len : Word) : Host.Outcome State Fault Refusal :=
  aluFinish s.drawn x r (flagsLogic r s.draws) len

/-- AND, OR and XOR: `x[X] <- f s1 s2` (R115, R116, R117). -/
def aluLogic (f : Word → Word → Word) (x : RegNum) (src : Operand) (s : State) : Host.Outcome State Fault Refusal :=
  let s1 := s.regValue x
  let sA := s.afterRead x
  logicFinish (src.after sA) x (f s1 (src.value sA)) src.len

/-- NOT: `x[X] <- ~s2`; source 1 is not read (R118). -/
def aluNot (x : RegNum) (src : Operand) (s : State) : Host.Outcome State Fault Refusal :=
  logicFinish (src.after s) x (~~~ src.value s) src.len

/-- LSR and LSL: `x[X] <- f s1`; source 2 is not read (R119, R120). -/
def aluShift (f : Word → Word) (x : RegNum) (len : Word) (s : State) : Host.Outcome State Fault Refusal :=
  logicFinish (s.afterRead x) x (f (s.regValue x)) len

/-- `0b0 ‖ s1[15:1]` (R119). -/
def shiftRightOne (w : Word) : Word := 0#1 ++ w.extractLsb' 1 15

/-- `s1[14:0] ‖ 0b0` (R120). -/
def shiftLeftOne (w : Word) : Word := w.extractLsb' 0 15 ++ 0#1

/-- ADD rX, rY (R113). -/
def execAddReg (x y : RegNum) (s : State) : Host.Outcome State Fault Refusal :=
  aluArith (· + ·) flagsAdd x (.reg y) s

/-- ADD rX, #imm (R111, R113; log 16). -/
def execAddImm (x : RegNum) (imm : Word) (s : State) : Host.Outcome State Fault Refusal :=
  aluArith (· + ·) flagsAdd x (.imm imm) s

/-- SUB rX, rY (R114). -/
def execSubReg (x y : RegNum) (s : State) : Host.Outcome State Fault Refusal :=
  aluArith (· - ·) flagsSub x (.reg y) s

/-- SUB rX, #imm (R111, R114; log 16). -/
def execSubImm (x : RegNum) (imm : Word) (s : State) : Host.Outcome State Fault Refusal :=
  aluArith (· - ·) flagsSub x (.imm imm) s

/-- AND rX, rY (R115). -/
def execAndReg (x y : RegNum) (s : State) : Host.Outcome State Fault Refusal :=
  aluLogic (· &&& ·) x (.reg y) s

/-- AND rX, #imm (R111, R115; log 16). -/
def execAndImm (x : RegNum) (imm : Word) (s : State) : Host.Outcome State Fault Refusal :=
  aluLogic (· &&& ·) x (.imm imm) s

/-- OR rX, rY (R116). -/
def execOrReg (x y : RegNum) (s : State) : Host.Outcome State Fault Refusal :=
  aluLogic (· ||| ·) x (.reg y) s

/-- OR rX, #imm (R111, R116; log 16). -/
def execOrImm (x : RegNum) (imm : Word) (s : State) : Host.Outcome State Fault Refusal :=
  aluLogic (· ||| ·) x (.imm imm) s

/-- XOR rX, rY (R117). -/
def execXorReg (x y : RegNum) (s : State) : Host.Outcome State Fault Refusal :=
  aluLogic (· ^^^ ·) x (.reg y) s

/-- XOR rX, #imm (R111, R117; log 16). -/
def execXorImm (x : RegNum) (imm : Word) (s : State) : Host.Outcome State Fault Refusal :=
  aluLogic (· ^^^ ·) x (.imm imm) s

/-- NOT rX, rY (R118). -/
def execNotReg (x y : RegNum) (s : State) : Host.Outcome State Fault Refusal :=
  aluNot x (.reg y) s

/-- NOT rX, #imm (R111, R118; log 16). -/
def execNotImm (x : RegNum) (imm : Word) (s : State) : Host.Outcome State Fault Refusal :=
  aluNot x (.imm imm) s

/-- LSR rX (R119). -/
def execLsrReg (x : RegNum) (s : State) : Host.Outcome State Fault Refusal :=
  aluShift shiftRightOne x 2#16 s

/-- LSR rX with i = 1: four bytes long (R119; log 16). -/
def execLsrImm (x : RegNum) (s : State) : Host.Outcome State Fault Refusal :=
  aluShift shiftRightOne x 4#16 s

/-- LSL rX (R120). -/
def execLslReg (x : RegNum) (s : State) : Host.Outcome State Fault Refusal :=
  aluShift shiftLeftOne x 2#16 s

/-- LSL rX with i = 1: four bytes long (R120; log 16). -/
def execLslImm (x : RegNum) (s : State) : Host.Outcome State Fault Refusal :=
  aluShift shiftLeftOne x 4#16 s

end Sys2Proof.Machine
end

