-- ==== Sys2Proof/Machine/ControlFlow.lean ====
section
/-! DEFINITION. JMP, BRE, BNE, BGT, BLS, CALL, RET (42_control_flow.md R140 to R148). Targets are absolute; their
alignment is not checked here (R140). The flags are read, never written. -/

namespace Sys2Proof.Machine

/-- JMP and the four branches: `if taken then pc <- target else pc <- npc`. A register target is read whether or not the
branch is taken (R142). -/
def branchOp (taken : Flags → Bool) (target : Operand) (s : State) : Host.Outcome State Fault Refusal :=
  .next ((target.after s).setPc (if taken s.flags then target.value s else npc s target.len))

/-- CALL (R146): the target is read before SP changes; `npc` is pushed. -/
def callOp (target : Operand) (s : State) : Host.Outcome State Fault Refusal :=
  settle <|
    match stackPush (target.after s) (npc s target.len) with
    | .error f => .error f
    | .ok t => .ok (t.setPc (target.value s))

/-- JMP rX (R141). -/
def execJmpReg (x : RegNum) (s : State) : Host.Outcome State Fault Refusal := branchOp (fun _ => true) (.reg x) s

/-- JMP #addr (R141). -/
def execJmpImm (imm : Word) (s : State) : Host.Outcome State Fault Refusal := branchOp (fun _ => true) (.imm imm) s

/-- BRE rX (R142). -/
def execBreReg (x : RegNum) (s : State) : Host.Outcome State Fault Refusal := branchOp condBRE (.reg x) s

/-- BRE #addr (R142). -/
def execBreImm (imm : Word) (s : State) : Host.Outcome State Fault Refusal := branchOp condBRE (.imm imm) s

/-- BNE rX (R143). -/
def execBneReg (x : RegNum) (s : State) : Host.Outcome State Fault Refusal := branchOp condBNE (.reg x) s

/-- BNE #addr (R143). -/
def execBneImm (imm : Word) (s : State) : Host.Outcome State Fault Refusal := branchOp condBNE (.imm imm) s

/-- BGT rX (R144). -/
def execBgtReg (x : RegNum) (s : State) : Host.Outcome State Fault Refusal := branchOp condBGT (.reg x) s

/-- BGT #addr (R144). -/
def execBgtImm (imm : Word) (s : State) : Host.Outcome State Fault Refusal := branchOp condBGT (.imm imm) s

/-- BLS rX (R145). -/
def execBlsReg (x : RegNum) (s : State) : Host.Outcome State Fault Refusal := branchOp condBLS (.reg x) s

/-- BLS #addr (R145). -/
def execBlsImm (imm : Word) (s : State) : Host.Outcome State Fault Refusal := branchOp condBLS (.imm imm) s

/-- CALL rX (R146). -/
def execCallReg (x : RegNum) (s : State) : Host.Outcome State Fault Refusal := callOp (.reg x) s

/-- CALL #addr (R146). -/
def execCallImm (imm : Word) (s : State) : Host.Outcome State Fault Refusal := callOp (.imm imm) s

/-- RET (R147): `pc <- StackPull()`. -/
def execRet (s : State) : Host.Outcome State Fault Refusal :=
  settle <|
    match stackPull s with
    | .error f => .error f
    | .ok (v, t) => .ok (t.setPc v)

end Sys2Proof.Machine
end

