-- ==== Sys2Proof/Machine/DataMovement.lean ====
section
/-! DEFINITION. MOV, LDW, SDW (41_data_movement.md R130 to R133). The flags are not affected. -/

namespace Sys2Proof.Machine

/-- `x[X] <- v` (R130). -/
def moveOp (x : RegNum) (src : Operand) (s : State) : Host.Outcome State Fault Refusal :=
  .next (((src.after s).writeReg x (src.value s)).setPc (npc s src.len))

/-- `x[X] <- MemRead(ea, 2)` (R131). -/
def loadOp (x : RegNum) (addr : Operand) (s : State) : Host.Outcome State Fault Refusal :=
  settle <|
    match memRead (addr.after s) (addr.value s) with
    | .error f => .error f
    | .ok v => .ok (((addr.after s).writeReg x v).setPc (npc s addr.len))

/-- The state in which SDW reads its data register: the address has been read (R132, log 22). -/
def storeData (x : RegNum) (addr : Operand) (s : State) : Word := (addr.after s).regValue x

/-- `MemWrite(ea, 2, x[X])` (R132): the address is read before the data. -/
def storeOp (x : RegNum) (addr : Operand) (s : State) : Host.Outcome State Fault Refusal :=
  settle <|
    match memWrite ((addr.after s).afterRead x) (addr.value s) (storeData x addr s) with
    | .error f => .error f
    | .ok t => .ok (t.setPc (npc s addr.len))

/-- MOV rX, rY (R130). -/
def execMovReg (x y : RegNum) (s : State) : Host.Outcome State Fault Refusal := moveOp x (.reg y) s

/-- MOV rX, #imm (R130). -/
def execMovImm (x : RegNum) (imm : Word) (s : State) : Host.Outcome State Fault Refusal := moveOp x (.imm imm) s

/-- LDW rX, rY (R131). -/
def execLdwReg (x y : RegNum) (s : State) : Host.Outcome State Fault Refusal := loadOp x (.reg y) s

/-- LDW rX, #addr (R131). -/
def execLdwImm (x : RegNum) (imm : Word) (s : State) : Host.Outcome State Fault Refusal := loadOp x (.imm imm) s

/-- SDW rX, rY (R132). -/
def execSdwReg (x y : RegNum) (s : State) : Host.Outcome State Fault Refusal := storeOp x (.reg y) s

/-- SDW rX, #addr (R132). -/
def execSdwImm (x : RegNum) (imm : Word) (s : State) : Host.Outcome State Fault Refusal := storeOp x (.imm imm) s

end Sys2Proof.Machine
end

