-- ==== Sys2Proof/Machine/Stack.lean ====
section
/-! DEFINITION. PUSH and PULL (43_stack.md R160, R161). The flags are not affected. -/

namespace Sys2Proof.Machine

/-- PUSH rX (R160): the register is read before SP changes. -/
def execPush (x : RegNum) (s : State) : Host.Outcome State Fault Refusal :=
  settle <|
    match stackPush (s.afterRead x) (s.regValue x) with
    | .error f => .error f
    | .ok t => .ok (t.setPc (npc s 2#16))

/-- PULL rX (R161): `PullToSP` comes before `MisalignedData` (R185). -/
def execPull (x : RegNum) (s : State) : Host.Outcome State Fault Refusal :=
  settle <|
    if x = regSP then .error .pullToSP
    else
      match stackPull s with
      | .error f => .error f
      | .ok (v, t) => .ok ((t.writeReg x v).setPc (npc s 2#16))

end Sys2Proof.Machine
end

