-- ==== Sys2Proof/Machine/System.lean ====
section
/-! DEFINITION. INT (44_system.md R170). -/

namespace Sys2Proof.Machine

/-- INT: the terminal event `SoftwareInterrupt`, no state change (R170). What INT does on hardware is
"implementation-dependent" and the spec gives it no effect (log 7). -/
def execInt (_s : State) : Host.Outcome State Fault Refusal := .refused .softwareInterrupt

end Sys2Proof.Machine
end

