-- ==== Sys2Proof/Machine/Dispatch.lean ====
section
/-! DEFINITION. Which meaning each instruction form has: one arm per constructor of `Instr`. -/

namespace Sys2Proof.Machine

/-- The effect of one instruction; `s.pc` is the address of its core word (10_state.md R28). -/
def exec (i : Instr) (s : State) : Host.Outcome State Fault Refusal :=
  match i with
  | .movReg x y => Sys2Proof.Machine.execMovReg x y s
  | .movImm x imm => Sys2Proof.Machine.execMovImm x imm s
  | .addReg x y => Sys2Proof.Machine.execAddReg x y s
  | .addImm x imm => Sys2Proof.Machine.execAddImm x imm s
  | .subReg x y => Sys2Proof.Machine.execSubReg x y s
  | .subImm x imm => Sys2Proof.Machine.execSubImm x imm s
  | .andReg x y => Sys2Proof.Machine.execAndReg x y s
  | .andImm x imm => Sys2Proof.Machine.execAndImm x imm s
  | .orReg x y => Sys2Proof.Machine.execOrReg x y s
  | .orImm x imm => Sys2Proof.Machine.execOrImm x imm s
  | .xorReg x y => Sys2Proof.Machine.execXorReg x y s
  | .xorImm x imm => Sys2Proof.Machine.execXorImm x imm s
  | .notReg x y => Sys2Proof.Machine.execNotReg x y s
  | .notImm x imm => Sys2Proof.Machine.execNotImm x imm s
  | .lsrReg x => Sys2Proof.Machine.execLsrReg x s
  | .lsrImm x => Sys2Proof.Machine.execLsrImm x s
  | .lslReg x => Sys2Proof.Machine.execLslReg x s
  | .lslImm x => Sys2Proof.Machine.execLslImm x s
  | .ldwReg x y => Sys2Proof.Machine.execLdwReg x y s
  | .ldwImm x imm => Sys2Proof.Machine.execLdwImm x imm s
  | .sdwReg x y => Sys2Proof.Machine.execSdwReg x y s
  | .sdwImm x imm => Sys2Proof.Machine.execSdwImm x imm s
  | .jmpReg x => Sys2Proof.Machine.execJmpReg x s
  | .jmpImm imm => Sys2Proof.Machine.execJmpImm imm s
  | .breReg x => Sys2Proof.Machine.execBreReg x s
  | .breImm imm => Sys2Proof.Machine.execBreImm imm s
  | .bneReg x => Sys2Proof.Machine.execBneReg x s
  | .bneImm imm => Sys2Proof.Machine.execBneImm imm s
  | .bgtReg x => Sys2Proof.Machine.execBgtReg x s
  | .bgtImm imm => Sys2Proof.Machine.execBgtImm imm s
  | .blsReg x => Sys2Proof.Machine.execBlsReg x s
  | .blsImm imm => Sys2Proof.Machine.execBlsImm imm s
  | .callReg x => Sys2Proof.Machine.execCallReg x s
  | .callImm imm => Sys2Proof.Machine.execCallImm imm s
  | .ret => Sys2Proof.Machine.execRet s
  | .push x => Sys2Proof.Machine.execPush x s
  | .pull x => Sys2Proof.Machine.execPull x s
  | .int => Sys2Proof.Machine.execInt s

end Sys2Proof.Machine
end

