-- ==== Sys2Proof/Machine/Step.lean ====
section
/-! DEFINITION. One step of the core (60_exceptions.md R193) and the load of one instruction from outside. -/

namespace Sys2Proof.Machine

/-- R193: the interrupt check, then fetch and decode, then the instruction's rule. The first stop ends the step. -/
def step (s : State) : Host.Outcome State Fault Refusal :=
  match interruptCheck s with
  | .error f => .fault f
  | .ok t =>
    match fetchDecode t with
    | .error f => .fault f
    | .ok i => exec i t

/-- The environment's load (70_reset_and_hazards.md R201) of one instruction at pc, in memory order: the longest
instruction's four bytes, those above `nbits` being 0 (log 21). Nothing but these bytes changes. -/
def State.withFetchWord (s : State) (nbits w : Nat) : State :=
  let v := w % 2 ^ nbits
  s.setMem ((s.mem.writeWord s.pc (BitVec.ofNat 16 v)).writeWord (s.pc + 2#16) (BitVec.ofNat 16 (v / 65536)))

end Sys2Proof.Machine
end

