-- ==== Sys2Proof/Safety.lean ====
section
/-! DEFINITION. What counts as a safe step and a good end (60_exceptions.md R181, 70_reset_and_hazards.md R205). -/

namespace Sys2Proof.Safety

open Sys2Proof.Machine

/-- The state a step goes on in, if it does. -/
def nextState? : Host.Outcome State Fault Refusal → Option State
  | .next t => some t
  | .fault _ => none
  | .refused _ => none

/-- The fault a step ends in, if it does. -/
def faultOf? : Host.Outcome State Fault Refusal → Option Fault
  | .next _ => none
  | .fault f => some f
  | .refused _ => none

/-- The refusal a step ends in, if it does. -/
def refusalOf? : Host.Outcome State Fault Refusal → Option Refusal
  | .next _ => none
  | .fault _ => none
  | .refused r => some r

/-- The good end of a run: the program executed INT (R205). The state at the end is the one before that step. -/
abbrev GoodEnd (s : State) : Prop := refusalOf? (step s) = some .softwareInterrupt

/-- A state whose step goes on or is the good end: no fault of R181. -/
abbrev SafeStep (s : State) : Prop := faultOf? (step s) = none

/-- The states that a run from `s` passes through. -/
inductive Reaches (s : State) : State → Prop where
  | here : Reaches s s
  | further {t u : State} (before : Reaches s t) (one : step t = .next u) : Reaches s u

/-- A run is safe when no state it reaches faults at its next step. -/
def SafeRun (s : State) : Prop := ∀ t, Reaches s t → SafeStep t

/-! ### The terms in which effects and frames are stated -/

/-- Register `x` received `v` as R23 and R25 say, and no other register changed: x1 to x15 hold what they held but for
`x`, and the mask holds what it held unless `x` is x0, which keeps bits 7 to 0 of `v` in it. -/
def RegWritten (s t : State) (x : RegNum) (v : Word) : Prop :=
  (∀ n, n ≠ regINT → t.regValue n = if n = x then v else s.regValue n) ∧
    t.imask = if x = regINT then loByte v else s.imask

/-- No register changed, the mask included. -/
def RegsSame (s t : State) : Prop := (∀ n, n ≠ regINT → t.regValue n = s.regValue n) ∧ t.imask = s.imask

/-- Every byte of memory reads as before. -/
def MemorySame (s t : State) : Prop := ∀ a, Memory.read t.mem a = Memory.read s.mem a

/-- The word `v` stands at `addr`, low byte first, and every other byte of memory reads as before (R54). -/
def WordStored (s t : State) (addr v : Word) : Prop :=
  Memory.read t.mem addr.toNat = loByte v ∧ Memory.read t.mem (addr + 1#16).toNat = hiByte v ∧
    ∀ a, a ≠ addr.toNat → a ≠ (addr + 1#16).toNat → Memory.read t.mem a = Memory.read s.mem a

/-- The word at `addr`, from its two bytes (R53). -/
def wordAt (s : State) (addr : Word) : Word :=
  wordOfBytes (Memory.read s.mem addr.toNat) (Memory.read s.mem (addr + 1#16).toNat)

/-- The instruction is one of the eight ALU instructions, the flag-modifying ones (R112). -/
def isAlu : Instr → Bool
  | .addReg _ _ | .addImm _ _ | .subReg _ _ | .subImm _ _ | .andReg _ _ | .andImm _ _ | .orReg _ _ | .orImm _ _ => true
  | .xorReg _ _ | .xorImm _ _ | .notReg _ _ | .notImm _ _ | .lsrReg _ | .lsrImm _ | .lslReg _ | .lslImm _ => true
  | .movReg _ _ | .movImm _ _ | .ldwReg _ _ | .ldwImm _ _ | .sdwReg _ _ | .sdwImm _ _ => false
  | .jmpReg _ | .jmpImm _ | .breReg _ | .breImm _ | .bneReg _ | .bneImm _ | .bgtReg _ | .bgtImm _ => false
  | .blsReg _ | .blsImm _ | .callReg _ | .callImm _ | .ret | .push _ | .pull _ | .int => false

/-- The instruction writes a word of memory: SDW, PUSH, CALL (R52). -/
def storesWord : Instr → Bool
  | .sdwReg _ _ | .sdwImm _ _ | .push _ | .callReg _ | .callImm _ => true
  | .movReg _ _ | .movImm _ _ | .ldwReg _ _ | .ldwImm _ _ | .pull _ | .ret | .int => false
  | .addReg _ _ | .addImm _ _ | .subReg _ _ | .subImm _ _ | .andReg _ _ | .andImm _ _ | .orReg _ _ | .orImm _ _ => false
  | .xorReg _ _ | .xorImm _ _ | .notReg _ _ | .notImm _ _ | .lsrReg _ | .lsrImm _ | .lslReg _ | .lslImm _ => false
  | .jmpReg _ | .jmpImm _ | .breReg _ | .breImm _ | .bneReg _ | .bneImm _ | .bgtReg _ | .bgtImm _ => false
  | .blsReg _ | .blsImm _ => false

/-- The address of the data word that the instruction accesses in the state it runs in, if it accesses one (R52): LDW and
SDW at their operand, PUSH and CALL at SP, PULL and RET one slot above it (R162). -/
def accessAddress (s : State) : Instr → Option Word
  | .ldwReg _ y | .sdwReg _ y => some (s.regValue y)
  | .ldwImm _ addr | .sdwImm _ addr => some addr
  | .push _ | .callReg _ | .callImm _ => some (s.regValue regSP)
  | .pull _ | .ret => some (s.regValue regSP + 2#16)
  | .addReg _ _ | .addImm _ _ | .subReg _ _ | .subImm _ _ | .andReg _ _ | .andImm _ _ | .orReg _ _ | .orImm _ _ => none
  | .xorReg _ _ | .xorImm _ _ | .notReg _ _ | .notImm _ _ | .lsrReg _ | .lsrImm _ | .lslReg _ | .lslImm _ => none
  | .jmpReg _ | .jmpImm _ | .breReg _ | .breImm _ | .bneReg _ | .bneImm _ | .bgtReg _ | .bgtImm _ => none
  | .blsReg _ | .blsImm _ => none
  | .movReg _ _ | .movImm _ _ | .int => none

/-- The registers that the instruction names and reads, one entry a read (R85; SP, which the stack instructions read
without naming it, is not listed). Each entry that is x0 takes one sample of `IFLAGS` (R24, R26). -/
def registersRead : Instr → List RegNum
  | .addReg x y | .subReg x y | .andReg x y | .orReg x y | .xorReg x y => [x, y]
  | .addImm x _ | .subImm x _ | .andImm x _ | .orImm x _ | .xorImm x _ => [x]
  | .notReg _ y => [y]
  | .notImm _ _ => []
  | .lsrReg x | .lsrImm x | .lslReg x | .lslImm x => [x]
  | .movReg _ y | .ldwReg _ y => [y]
  | .movImm _ _ | .ldwImm _ _ => []
  | .sdwReg x y => [y, x]
  | .sdwImm x _ => [x]
  | .jmpReg x | .breReg x | .bneReg x | .bgtReg x | .blsReg x | .callReg x => [x]
  | .jmpImm _ | .breImm _ | .bneImm _ | .bgtImm _ | .blsImm _ | .callImm _ => []
  | .push x => [x]
  | .pull _ | .ret | .int => []

/-- The instruction moves SP by itself: PUSH, PULL, CALL, RET (R27). -/
def movesSP : Instr → Bool
  | .push _ | .pull _ | .callReg _ | .callImm _ | .ret => true
  | .addReg _ _ | .addImm _ _ | .subReg _ _ | .subImm _ _ | .andReg _ _ | .andImm _ _ | .orReg _ _ | .orImm _ _ => false
  | .xorReg _ _ | .xorImm _ _ | .notReg _ _ | .notImm _ _ | .lsrReg _ | .lsrImm _ | .lslReg _ | .lslImm _ => false
  | .jmpReg _ | .jmpImm _ | .breReg _ | .breImm _ | .bneReg _ | .bneImm _ | .bgtReg _ | .bgtImm _ => false
  | .blsReg _ | .blsImm _ => false
  | .movReg _ _ | .movImm _ _ | .ldwReg _ _ | .ldwImm _ _ | .sdwReg _ _ | .sdwImm _ _ | .int => false

/-- The instruction may write pc with a target: the seven of 42_control_flow.md (R28). -/
def isControlFlow : Instr → Bool
  | .jmpReg _ | .jmpImm _ | .breReg _ | .breImm _ | .bneReg _ | .bneImm _ | .bgtReg _ | .bgtImm _ => true
  | .blsReg _ | .blsImm _ => true
  | .callReg _ | .callImm _ | .ret => true
  | .addReg _ _ | .addImm _ _ | .subReg _ _ | .subImm _ _ | .andReg _ _ | .andImm _ _ | .orReg _ _ | .orImm _ _ => false
  | .xorReg _ _ | .xorImm _ _ | .notReg _ _ | .notImm _ _ | .lsrReg _ | .lsrImm _ | .lslReg _ | .lslImm _ => false
  | .movReg _ _ | .movImm _ _ | .ldwReg _ _ | .ldwImm _ _ | .sdwReg _ _ | .sdwImm _ _ | .push _ | .pull _ | .int => false

/-- The register that the instruction names as its destination (R85). -/
def destination : Instr → Option RegNum
  | .movReg x _ | .movImm x _ | .ldwReg x _ | .ldwImm x _ | .pull x => some x
  | .addReg x _ | .addImm x _ | .subReg x _ | .subImm x _ | .andReg x _ | .andImm x _ | .orReg x _ | .orImm x _ => some x
  | .xorReg x _ | .xorImm x _ | .notReg x _ | .notImm x _ | .lsrReg x | .lsrImm x | .lslReg x | .lslImm x => some x
  | .jmpReg _ | .jmpImm _ | .breReg _ | .breImm _ | .bneReg _ | .bneImm _ | .bgtReg _ | .bgtImm _ => none
  | .blsReg _ | .blsImm _ => none
  | .sdwReg _ _ | .sdwImm _ _ | .push _ | .callReg _ | .callImm _ | .ret | .int => none

/-- The carry into the most significant bit of `a + b` (10_state.md R31). -/
def carryIntoMsb (a b : Word) : Bool := decide (32768 ≤ a.toNat % 32768 + b.toNat % 32768)

/-- The carry out of the most significant bit of `a + b` (10_state.md R31). -/
def carryOutOfMsb (a b : Word) : Bool := decide (65536 ≤ a.toNat + b.toNat)

/-- The flags FS and FZ of a result: bit 15, and all bits 0 (40_alu.md R112). -/
def SignAndZeroOf (t : State) (r : Word) : Prop :=
  (t.flags.fs = true ↔ 32768 ≤ r.toNat) ∧ (t.flags.fz = true ↔ r.toNat = 0)

/-- ADD with source values `a` and `b`, `len` bytes long (40_alu.md R113). -/
def AddEffect (s t : State) (x : RegNum) (a b len : Word) : Prop :=
  RegWritten s t x (a + b) ∧ SignAndZeroOf t (a + b) ∧ (t.flags.fc = true ↔ 65536 ≤ a.toNat + b.toNat) ∧
    (t.flags.fo = true ↔ a.msb = b.msb ∧ (a + b).msb ≠ a.msb) ∧ t.pc = s.pc + len ∧ MemorySame s t

/-- SUB with source values `a` and `b`, `len` bytes long (40_alu.md R114): FC is the borrow, FO the signed overflow. -/
def SubEffect (s t : State) (x : RegNum) (a b len : Word) : Prop :=
  RegWritten s t x (a - b) ∧ SignAndZeroOf t (a - b) ∧ (t.flags.fc = true ↔ a.toNat < b.toNat) ∧
    (t.flags.fo = true ↔ a.toInt - b.toInt < -32768 ∨ 32767 < a.toInt - b.toInt) ∧ t.pc = s.pc + len ∧ MemorySame s t

/-- What FZ and FS say of `a` and `b` after `a - b` (42_control_flow.md R148): FZ is equality, and the signs order the
operands as signed numbers exactly when the difference is in range; out of range they are inverted. -/
def SubOrder (t : State) (a b : Word) : Prop :=
  (t.flags.fz = true ↔ a = b) ∧
    (-32768 ≤ a.toInt - b.toInt ∧ a.toInt - b.toInt ≤ 32767 →
      ((t.flags.fz = false ∧ t.flags.fs = false) ↔ b.toInt < a.toInt) ∧ (t.flags.fs = true ↔ a.toInt < b.toInt)) ∧
    (¬(-32768 ≤ a.toInt - b.toInt ∧ a.toInt - b.toInt ≤ 32767) →
      ((t.flags.fz = false ∧ t.flags.fs = false) ↔ a.toInt < b.toInt) ∧ (t.flags.fs = true ↔ b.toInt < a.toInt))

/-- An instruction whose result `r` sets FS and FZ and leaves FO and FC open (40_alu.md R112). -/
def LogicEffect (s t : State) (x : RegNum) (r len : Word) : Prop :=
  RegWritten s t x r ∧ SignAndZeroOf t r ∧ t.pc = s.pc + len ∧ MemorySame s t

/-- A register received a value; the flags and memory are as before (41_data_movement.md R130, R131). -/
def MoveEffect (s t : State) (x : RegNum) (v len : Word) : Prop :=
  RegWritten s t x v ∧ t.flags = s.flags ∧ t.pc = s.pc + len ∧ MemorySame s t

/-- Control went to `target`; no register, flag or byte of memory changed (42_control_flow.md R140). -/
def JumpEffect (s t : State) (target : Word) : Prop :=
  t.pc = target ∧ RegsSame s t ∧ t.flags = s.flags ∧ MemorySame s t

/-- The word `v` was pushed (43_stack.md R162): stored at SP, SP two lower, nothing else but pc. -/
def PushEffect (s t : State) (v : Word) : Prop :=
  WordStored s t (s.regValue regSP) v ∧ RegWritten s t regSP (s.regValue regSP - 2#16) ∧ t.flags = s.flags

end Sys2Proof.Safety
end

