-- ==== Sys2Proof/Certificates/Slice0/Obligations.lean ====
section
/-! DEFINITION. The statements about this model. A statement that rests on a decision of the spec's own
(92_eei_decisions.md, D<n>) or on a choice of the model's (a log entry) says so in its docstring. Two decisions stand in
many statements and are named here once: addresses and pc wrap modulo 2^16 (D5, log 14), and a word has its low byte at
the lower address (D2, log 12). -/

open Sys2Proof Sys2Proof.Machine Sys2Proof.Safety

/-! ### Encoding -/

/-- Decode of encode is the instruction, whatever bytes follow, and the encoding is as long as its row says (R29, R81,
R96). The zeros in ignored fields are the spec's decision D25 (log 17), the byte order its D2 (log 12). -/
def Obligations.DecodeInvertsEncode : Prop :=
  ∀ (i : Instr) (rest : List Byte),
    decodeBytes (encodeBytes i ++ rest) = .ok i rest ∧ (encodeBytes i).length = i.lengthBytes

/-- R90, R96: the decoder refuses exactly the words that R90's match and mask column puts in a class, under that class;
a word in no class selects exactly one row of the table, and a word in a class none. Decisions D8 and D9 (log 11). -/
def Obligations.EveryCoreWordIsOneRowOrReserved : Prop :=
  (∀ (core imm : Word) (c : ReservedClass), decode core imm = .reserved c ↔ reservedClass core = some c) ∧
    ∀ core : Word,
      (opcodeTable.filter (·.selects core)).length = if (reservedClass core).isNone then 1 else 0

/-- R96: what the decoder gives for a core word is of a row that the word selects under the row's mask, and the row is of
format C32 exactly when field i is 1. Bit 12 = 0 outside the MOV format is the decision D8 (log 11). -/
def Obligations.DecodedWordSelectsItsRow : Prop :=
  ∀ (core imm : Word) (i : Instr), decode core imm = .instr i →
    i.row ∈ opcodeTable ∧ core &&& i.row.mask = i.row.pattern ∧ (i.row.words = 2 ↔ core.getLsbD 8 = true)

/-- R96, R91: MOV, LDW and SDW, both forms, bit by bit, at every operand and every value of the ignored fields
(decision D25, log 17). Bit 12 = 0 for LDW and SDW is the decision D8 (log 11). -/
def Obligations.DataMovementRowsDecode : Prop :=
  ∀ (aaa : BitVec 3) (x y : RegNum) (imm : Word),
    decode (0b000#3 ++ 0b0#1 ++ aaa ++ 0b0#1 ++ x ++ y) imm = .instr (.movReg x y) ∧
    decode (0b000#3 ++ 0b0#1 ++ aaa ++ 0b1#1 ++ x ++ y) imm = .instr (.movImm x imm) ∧
    decode (0b001#3 ++ 0b0#1 ++ aaa ++ 0b0#1 ++ x ++ y) imm = .instr (.ldwReg x y) ∧
    decode (0b001#3 ++ 0b0#1 ++ aaa ++ 0b1#1 ++ x ++ y) imm = .instr (.ldwImm x imm) ∧
    decode (0b010#3 ++ 0b0#1 ++ aaa ++ 0b0#1 ++ x ++ y) imm = .instr (.sdwReg x y) ∧
    decode (0b010#3 ++ 0b0#1 ++ aaa ++ 0b1#1 ++ x ++ y) imm = .instr (.sdwImm x imm)

/-- R96, R87, R91: the sixteen ALU rows, bit by bit, at every operand and every value of the ignored fields. The
immediate forms are the decision D10 (log 16), the ignored fields D25 (log 17). -/
def Obligations.AluRowsDecode : Prop :=
  ∀ (x y : RegNum) (imm : Word),
    decode (0b000#3 ++ 0b1#1 ++ 0b000#3 ++ 0b0#1 ++ x ++ y) imm = .instr (.addReg x y) ∧
    decode (0b000#3 ++ 0b1#1 ++ 0b000#3 ++ 0b1#1 ++ x ++ y) imm = .instr (.addImm x imm) ∧
    decode (0b000#3 ++ 0b1#1 ++ 0b001#3 ++ 0b0#1 ++ x ++ y) imm = .instr (.subReg x y) ∧
    decode (0b000#3 ++ 0b1#1 ++ 0b001#3 ++ 0b1#1 ++ x ++ y) imm = .instr (.subImm x imm) ∧
    decode (0b000#3 ++ 0b1#1 ++ 0b010#3 ++ 0b0#1 ++ x ++ y) imm = .instr (.andReg x y) ∧
    decode (0b000#3 ++ 0b1#1 ++ 0b010#3 ++ 0b1#1 ++ x ++ y) imm = .instr (.andImm x imm) ∧
    decode (0b000#3 ++ 0b1#1 ++ 0b011#3 ++ 0b0#1 ++ x ++ y) imm = .instr (.orReg x y) ∧
    decode (0b000#3 ++ 0b1#1 ++ 0b011#3 ++ 0b1#1 ++ x ++ y) imm = .instr (.orImm x imm) ∧
    decode (0b000#3 ++ 0b1#1 ++ 0b100#3 ++ 0b0#1 ++ x ++ y) imm = .instr (.xorReg x y) ∧
    decode (0b000#3 ++ 0b1#1 ++ 0b100#3 ++ 0b1#1 ++ x ++ y) imm = .instr (.xorImm x imm) ∧
    decode (0b000#3 ++ 0b1#1 ++ 0b101#3 ++ 0b0#1 ++ x ++ y) imm = .instr (.notReg x y) ∧
    decode (0b000#3 ++ 0b1#1 ++ 0b101#3 ++ 0b1#1 ++ x ++ y) imm = .instr (.notImm x imm) ∧
    decode (0b000#3 ++ 0b1#1 ++ 0b110#3 ++ 0b0#1 ++ x ++ y) imm = .instr (.lsrReg x) ∧
    decode (0b000#3 ++ 0b1#1 ++ 0b110#3 ++ 0b1#1 ++ x ++ y) imm = .instr (.lsrImm x) ∧
    decode (0b000#3 ++ 0b1#1 ++ 0b111#3 ++ 0b0#1 ++ x ++ y) imm = .instr (.lslReg x) ∧
    decode (0b000#3 ++ 0b1#1 ++ 0b111#3 ++ 0b1#1 ++ x ++ y) imm = .instr (.lslImm x)

/-- R96, R88, R91: the control-flow rows, bit by bit, at every operand and every value of the ignored fields. Bit 12 = 0
is the decision D8 (log 11), the ignored fields D25 (log 17). -/
def Obligations.ControlFlowRowsDecode : Prop :=
  ∀ (x y : RegNum) (imm : Word),
    decode (0b011#3 ++ 0b0#1 ++ 0b001#3 ++ 0b0#1 ++ x ++ y) imm = .instr (.jmpReg x) ∧
    decode (0b011#3 ++ 0b0#1 ++ 0b001#3 ++ 0b1#1 ++ x ++ y) imm = .instr (.jmpImm imm) ∧
    decode (0b011#3 ++ 0b0#1 ++ 0b010#3 ++ 0b0#1 ++ x ++ y) imm = .instr (.breReg x) ∧
    decode (0b011#3 ++ 0b0#1 ++ 0b010#3 ++ 0b1#1 ++ x ++ y) imm = .instr (.breImm imm) ∧
    decode (0b011#3 ++ 0b0#1 ++ 0b011#3 ++ 0b0#1 ++ x ++ y) imm = .instr (.bneReg x) ∧
    decode (0b011#3 ++ 0b0#1 ++ 0b011#3 ++ 0b1#1 ++ x ++ y) imm = .instr (.bneImm imm) ∧
    decode (0b011#3 ++ 0b0#1 ++ 0b100#3 ++ 0b0#1 ++ x ++ y) imm = .instr (.bgtReg x) ∧
    decode (0b011#3 ++ 0b0#1 ++ 0b100#3 ++ 0b1#1 ++ x ++ y) imm = .instr (.bgtImm imm) ∧
    decode (0b011#3 ++ 0b0#1 ++ 0b101#3 ++ 0b0#1 ++ x ++ y) imm = .instr (.blsReg x) ∧
    decode (0b011#3 ++ 0b0#1 ++ 0b101#3 ++ 0b1#1 ++ x ++ y) imm = .instr (.blsImm imm) ∧
    decode (0b011#3 ++ 0b0#1 ++ 0b110#3 ++ 0b0#1 ++ x ++ y) imm = .instr (.callReg x) ∧
    decode (0b011#3 ++ 0b0#1 ++ 0b110#3 ++ 0b1#1 ++ x ++ y) imm = .instr (.callImm imm) ∧
    decode (0b011#3 ++ 0b0#1 ++ 0b111#3 ++ 0b0#1 ++ x ++ y) imm = .instr .ret

/-- R96, R91: PUSH, PULL and INT, bit by bit, at every operand and every value of the ignored fields. Bit 12 = 0 is the
decision D8 (log 11), the ignored fields D25 (log 17). -/
def Obligations.StackAndSystemRowsDecode : Prop :=
  ∀ (aaa : BitVec 3) (x y : RegNum) (imm : Word),
    decode (0b100#3 ++ 0b0#1 ++ aaa ++ 0b0#1 ++ x ++ y) imm = .instr (.push x) ∧
    decode (0b101#3 ++ 0b0#1 ++ aaa ++ 0b0#1 ++ x ++ y) imm = .instr (.pull x) ∧
    decode (0b110#3 ++ 0b0#1 ++ aaa ++ 0b0#1 ++ x ++ y) imm = .instr .int

/-- R83: bit 8 of the core word alone decides whether an instruction is the core word only, 2 bytes, and then nothing
that follows it matters, or the core word and a 16-bit immediate word after it, 4 bytes. -/
def Obligations.FieldIAloneDecidesTheLength : Prop :=
  ∀ (core imm : Word) (i : Instr), decode core imm = .instr i →
    i.lengthBytes = (if core.getLsbD 8 then 4 else 2) ∧ (encode i).length = (if core.getLsbD 8 then 2 else 1) ∧
      (core.getLsbD 8 = false → ∀ other : Word, decode core other = .instr i)

/-- Words of 95_test_vectors.md sections 2 and 9, as bytes in memory order, decode to the instructions they stand for. -/
def Obligations.SampleWordsDecode : Prop :=
  decodeBytes [0xF0#8, 0x01#8, 0xCD#8, 0xAB#8] = .ok (.movImm 15#4 0xABCD#16) [] ∧
  decodeBytes [0x56#8, 0x10#8] = .ok (.addReg 5#4 6#4) [] ∧
  decodeBytes [0x30#8, 0x41#8, 0x00#8, 0x01#8] = .ok (.sdwImm 3#4 0x0100#16) [] ∧
  decodeBytes [0x00#8, 0x67#8, 0x08#8, 0x00#8] = .ok (.bneImm 0x0008#16) [] ∧
  decodeBytes [0x30#8, 0x80#8] = .ok (.push 3#4) [] ∧
  decodeBytes [0x00#8, 0xC0#8] = .ok .int [] ∧
  decodeBytes [0x30#8, 0x81#8] = .reserved .rv5

/-! ### Registers, reset, memory -/

/-- R22, R23: x1 to x15 read back what was written, a read has no side effect, and a write changes nothing else. (x0 is
not among the other registers compared, since bits 7 to 0 of its read are open, D14, log 5; its flags are.) -/
def Obligations.GeneralRegistersReadBackWrites : Prop :=
  ∀ (s : State) (n : RegNum) (v : Word), n ≠ regINT →
    s.afterRead n = s ∧ (s.writeReg n v).regValue n = v ∧
    (∀ k, k ≠ n → k ≠ regINT → (s.writeReg n v).regValue k = s.regValue k) ∧
    (s.writeReg n v).iflags = s.iflags ∧ (s.writeReg n v).imask = s.imask ∧ (s.writeReg n v).pc = s.pc ∧
    (s.writeReg n v).flags = s.flags ∧ (s.writeReg n v).mem = s.mem ∧
    (s.writeReg n v).irqInputs = s.irqInputs ∧ (s.writeReg n v).draws = s.draws

/-- R25: a write of x0 sets the mask from bits 7 to 0 and does nothing else: no register, no interrupt flag and no other
state; bits 15 to 8 are discarded. Of bits 7 to 0 of a later read of x0 nothing is said (R24). -/
def Obligations.WriteOfInterruptRegisterSetsMaskOnly : Prop :=
  ∀ (s : State) (v : Word),
    (s.writeReg regINT v).imask = v.extractLsb' 0 8 ∧
    (∀ w : Word, w.extractLsb' 0 8 = v.extractLsb' 0 8 → s.writeReg regINT w = s.writeReg regINT v) ∧
    (∀ n, n ≠ regINT → (s.writeReg regINT v).regValue n = s.regValue n) ∧ (s.writeReg regINT v).iflags = s.iflags ∧
    (s.writeReg regINT v).pc = s.pc ∧ (s.writeReg regINT v).flags = s.flags ∧ (s.writeReg regINT v).mem = s.mem ∧
    (s.writeReg regINT v).irqInputs = s.irqInputs ∧ (s.writeReg regINT v).draws = s.draws

/-- R24, R26: a read of x0 gives the environment's flags in bits 15 to 8 whatever the mask is, changes no state of the
core, takes exactly one sample of the input, and the next read is a new draw. Bits 7 to 0 are open (decision D14, log 5):
the statement says nothing of them. The unconstrained input is the decision D17 (log 4). -/
def Obligations.ReadOfInterruptRegisterGivesFlags : Prop :=
  ∀ (s : State) (m : Byte),
    (s.regValue regINT).extractLsb' 8 8 = s.iflags ∧ ((s.setIMask m).regValue regINT).extractLsb' 8 8 = s.iflags ∧
    (s.afterRead regINT).gpr = s.gpr ∧ (s.afterRead regINT).imask = s.imask ∧ (s.afterRead regINT).pc = s.pc ∧
    (s.afterRead regINT).flags = s.flags ∧ (s.afterRead regINT).mem = s.mem ∧
    (s.afterRead regINT).irqInputs = s.irqInputs.tail ∧ (s.afterRead regINT).draws ≠ s.draws

/-- R200 (decision D19, log 3): a released core has pc and mask zero, whatever the unspecified elements hold, and its
first instruction is the one whose words stand at address 0. -/
def Obligations.ReleasedCoreStartsAtAddressZero : Prop :=
  ∀ (g : Vector Word 15) (f : Flags) (m : Memory) (irq : List Byte) (i : Instr),
    (State.launch g f m irq).pc = 0x0000#16 ∧ (State.launch g f m irq).imask = 0x00#8 ∧
    (decode (wordAt (State.launch g f m irq) 0x0000#16) (wordAt (State.launch g f m irq) 0x0002#16) = .instr i →
      step (State.launch g f m irq) = exec i (State.launch g f m irq).sampled)

/-- R53, R54, R60: at an even address a word access completes, a word written is read back, its low byte lies at the
lower address, and every other byte and all other state is as before; at an odd address both accesses stop. The byte
order is the decision D2 (log 12), the stop D3 (log 9), the plain memory D20 (log 19). -/
def Obligations.WordWrittenIsReadBack : Prop :=
  ∀ (s : State) (addr v : Word),
    (addr.getLsbD 0 = false →
      ∃ t, memWrite s addr v = .ok t ∧ memRead t addr = .ok v ∧ WordStored s t addr v ∧ t = s.setMem t.mem ∧
        memRead s addr = .ok (wordAt s addr)) ∧
    (addr.getLsbD 0 = true →
      memWrite s addr v = .error (.misalignedData addr) ∧ memRead s addr = .error (.misalignedData addr))

/-- Memories in the model's canonical form (log 1) that read alike at every address are the same data. -/
def Obligations.CanonicalMemoriesWithEqualBytesAreEqual : Prop :=
  ∀ m k : Memory, Memory.wf m → Memory.wf k → (∀ a, Memory.read m a = Memory.read k a) → m = k

/-! ### ALU -/

/-- R113: ADD, both forms, every register: the sum wraps, all four flags, no other register, no byte of memory. (That the
immediate form exists is the decision D10, log 16; the order of the two reads shows for x0 alone, log 22.) -/
def Obligations.AddWritesSumAndFlags : Prop :=
  ∀ (s : State) (x : RegNum),
    (∀ y, ∃ t, exec (.addReg x y) s = .next t ∧ AddEffect s t x (s.regValue x) ((s.afterRead x).regValue y) 2#16) ∧
    (∀ imm, ∃ t, exec (.addImm x imm) s = .next t ∧ AddEffect s t x (s.regValue x) imm 4#16)

/-- R31 for ADD: FS is result bit 15, FZ all result bits 0, FC the carry out of the most significant bit, FO that it
differs from the carry into it. The immediate form is the decision D10 (log 16), the order of the two reads log 22. -/
def Obligations.AddFlagsAreTheCarriesOfTheMsb : Prop :=
  ∀ (s t : State) (x : RegNum),
    (∀ y, exec (.addReg x y) s = .next t →
      (t.flags.fc = carryOutOfMsb (s.regValue x) ((s.afterRead x).regValue y)) ∧
      (t.flags.fo = (carryOutOfMsb (s.regValue x) ((s.afterRead x).regValue y) !=
        carryIntoMsb (s.regValue x) ((s.afterRead x).regValue y))) ∧
      SignAndZeroOf t (s.regValue x + (s.afterRead x).regValue y)) ∧
    (∀ imm, exec (.addImm x imm) s = .next t →
      (t.flags.fc = carryOutOfMsb (s.regValue x) imm) ∧
      (t.flags.fo = (carryOutOfMsb (s.regValue x) imm != carryIntoMsb (s.regValue x) imm)) ∧
      SignAndZeroOf t (s.regValue x + imm))

/-- R114: SUB, both forms, every register: Register 1 minus source 2, all four flags, no other register, no byte of
memory. FC as the borrow is the decision D13 (log 15), the immediate form D10 (log 16); the order of the two reads shows
for x0 alone (log 22). -/
def Obligations.SubWritesDifferenceAndFlags : Prop :=
  ∀ (s : State) (x : RegNum),
    (∀ y, ∃ t, exec (.subReg x y) s = .next t ∧ SubEffect s t x (s.regValue x) ((s.afterRead x).regValue y) 2#16) ∧
    (∀ imm, ∃ t, exec (.subImm x imm) s = .next t ∧ SubEffect s t x (s.regValue x) imm 4#16)

/-- R115, R116, R117: AND, OR and XOR, both forms, every register; FS and FZ from the result. FO and FC are open
(R112, D12, log 6): nothing is said of them. (That the immediate forms exist is the decision D10, log 16; the order of the two
reads shows for x0 alone, log 22.) -/
def Obligations.BitwiseInstructionsWriteResultSignAndZero : Prop :=
  ∀ (s : State) (x : RegNum),
    (∀ y,
      (∃ t, exec (.andReg x y) s = .next t ∧ LogicEffect s t x (s.regValue x &&& (s.afterRead x).regValue y) 2#16) ∧
      (∃ t, exec (.orReg x y) s = .next t ∧ LogicEffect s t x (s.regValue x ||| (s.afterRead x).regValue y) 2#16) ∧
      (∃ t, exec (.xorReg x y) s = .next t ∧ LogicEffect s t x (s.regValue x ^^^ (s.afterRead x).regValue y) 2#16)) ∧
    (∀ imm,
      (∃ t, exec (.andImm x imm) s = .next t ∧ LogicEffect s t x (s.regValue x &&& imm) 4#16) ∧
      (∃ t, exec (.orImm x imm) s = .next t ∧ LogicEffect s t x (s.regValue x ||| imm) 4#16) ∧
      (∃ t, exec (.xorImm x imm) s = .next t ∧ LogicEffect s t x (s.regValue x ^^^ imm) 4#16))

/-- R118: NOT, both forms: the result is 0xFFFF - s2, from source 2 alone. (That the immediate form exists is the
decision D10, log 16.) -/
def Obligations.NotWritesComplementOfSourceTwo : Prop :=
  ∀ (s : State) (x : RegNum),
    (∀ y, ∃ t, exec (.notReg x y) s = .next t ∧ LogicEffect s t x (0xFFFF#16 - s.regValue y) 2#16) ∧
    (∀ imm, ∃ t, exec (.notImm x imm) s = .next t ∧ LogicEffect s t x (0xFFFF#16 - imm) 4#16)

/-- R119, R120: LSR halves and clears FS, LSL doubles modulo 2^16; both lengths. (That the form with i = 1 exists is the
decision D10, log 16.) -/
def Obligations.ShiftsMoveByOneBit : Prop :=
  ∀ (s : State) (x : RegNum) (half twice : Word), half.toNat = (s.regValue x).toNat / 2 →
    twice.toNat = 2 * (s.regValue x).toNat % 65536 →
    (∃ t, exec (.lsrReg x) s = .next t ∧ LogicEffect s t x half 2#16 ∧ t.flags.fs = false) ∧
    (∃ t, exec (.lsrImm x) s = .next t ∧ LogicEffect s t x half 4#16 ∧ t.flags.fs = false) ∧
    (∃ t, exec (.lslReg x) s = .next t ∧ LogicEffect s t x twice 2#16) ∧
    (∃ t, exec (.lslImm x) s = .next t ∧ LogicEffect s t x twice 4#16)

/-! ### Data movement -/

/-- R130: MOV, both forms, every register, x0 included. -/
def Obligations.MovCopiesWithoutTouchingFlags : Prop :=
  ∀ (s : State) (x : RegNum),
    (∀ y, ∃ t, exec (.movReg x y) s = .next t ∧ MoveEffect s t x (s.regValue y) 2#16) ∧
    (∀ imm, ∃ t, exec (.movImm x imm) s = .next t ∧ MoveEffect s t x imm 4#16)

/-- R131: LDW, both forms, at an even address: the word there goes to rX. The byte order is the decision D2 (log 12). -/
def Obligations.LdwLoadsTheAddressedWord : Prop :=
  ∀ (s : State) (x : RegNum),
    (∀ y, (s.regValue y).getLsbD 0 = false →
      ∃ t, exec (.ldwReg x y) s = .next t ∧ MoveEffect s t x (wordAt s (s.regValue y)) 2#16) ∧
    (∀ addr : Word, addr.getLsbD 0 = false →
      ∃ t, exec (.ldwImm x addr) s = .next t ∧ MoveEffect s t x (wordAt s addr) 4#16)

/-- R132: SDW, both forms, at an even address: rX is stored there, no register and no other byte changes. The byte order
is the decision D2 (log 12); that the address is read before the data matters for x0 alone (log 22). -/
def Obligations.SdwStoresAtTheAddressedWord : Prop :=
  ∀ (s : State) (x : RegNum),
    (∀ y, (s.regValue y).getLsbD 0 = false →
      ∃ t, exec (.sdwReg x y) s = .next t ∧ WordStored s t (s.regValue y) ((s.afterRead y).regValue x) ∧
        RegsSame s t ∧ t.flags = s.flags ∧ t.pc = s.pc + 2#16) ∧
    (∀ addr : Word, addr.getLsbD 0 = false →
      ∃ t, exec (.sdwImm x addr) s = .next t ∧ WordStored s t addr (s.regValue x) ∧
        RegsSame s t ∧ t.flags = s.flags ∧ t.pc = s.pc + 4#16)

/-! ### Control flow -/

/-- R141: JMP, both forms: the target goes to pc, nothing else changes. -/
def Obligations.JmpGoesToItsTarget : Prop :=
  ∀ s : State,
    (∀ x, ∃ t, exec (.jmpReg x) s = .next t ∧ JumpEffect s t (s.regValue x)) ∧
    (∀ imm, ∃ t, exec (.jmpImm imm) s = .next t ∧ JumpEffect s t imm)

/-- R142, R143: BRE is taken when FZ = 1 and BNE when FZ = 0, both forms; otherwise pc goes past the instruction. -/
def Obligations.BreAndBneTestTheZeroFlag : Prop :=
  ∀ s : State,
    (∀ x,
      (∃ t, exec (.breReg x) s = .next t ∧ JumpEffect s t (if s.flags.fz = true then s.regValue x else s.pc + 2#16)) ∧
      (∃ t, exec (.bneReg x) s = .next t ∧ JumpEffect s t (if s.flags.fz = false then s.regValue x else s.pc + 2#16))) ∧
    (∀ imm,
      (∃ t, exec (.breImm imm) s = .next t ∧ JumpEffect s t (if s.flags.fz = true then imm else s.pc + 4#16)) ∧
      (∃ t, exec (.bneImm imm) s = .next t ∧ JumpEffect s t (if s.flags.fz = false then imm else s.pc + 4#16)))

/-- R144, R145: BGT is taken when FZ = 0 and FS = 0 and BLS when FS = 1, both forms. -/
def Obligations.BgtAndBlsTestTheSignFlag : Prop :=
  ∀ s : State,
    (∀ x,
      (∃ t, exec (.bgtReg x) s = .next t ∧
        JumpEffect s t (if s.flags.fz = false ∧ s.flags.fs = false then s.regValue x else s.pc + 2#16)) ∧
      (∃ t, exec (.blsReg x) s = .next t ∧ JumpEffect s t (if s.flags.fs = true then s.regValue x else s.pc + 2#16))) ∧
    (∀ imm,
      (∃ t, exec (.bgtImm imm) s = .next t ∧
        JumpEffect s t (if s.flags.fz = false ∧ s.flags.fs = false then imm else s.pc + 4#16)) ∧
      (∃ t, exec (.blsImm imm) s = .next t ∧ JumpEffect s t (if s.flags.fs = true then imm else s.pc + 4#16)))

/-- R148: what the flags of a SUB say of its operands. Equality is exact; the sign is the signed order exactly when the
difference is in range and its inverse when it is not. The spec derives R148 from R114; the immediate form is the decision
D10 (log 16), and the order of the two reads shows for x0 alone (log 22). -/
def Obligations.SubOrdersOperandsUnlessItOverflows : Prop :=
  ∀ (s t : State) (x : RegNum),
    (∀ y, exec (.subReg x y) s = .next t → SubOrder t (s.regValue x) ((s.afterRead x).regValue y)) ∧
    (∀ imm, exec (.subImm x imm) s = .next t → SubOrder t (s.regValue x) imm)

/-- R146: CALL, both forms, at an even SP: the address after the CALL is pushed and the target, read before SP moves, goes
to pc. The pushed value and SP's move are the decision D7, the placement D1 and D6 (log 13). -/
def Obligations.CallPushesReturnAddressAndJumps : Prop :=
  ∀ s : State, (s.regValue regSP).getLsbD 0 = false →
    (∀ x, ∃ t, exec (.callReg x) s = .next t ∧ PushEffect s t (s.pc + 2#16) ∧ t.pc = s.regValue x) ∧
    (∀ imm, ∃ t, exec (.callImm imm) s = .next t ∧ PushEffect s t (s.pc + 4#16) ∧ t.pc = imm)

/-- R147: RET at an even SP: the word one slot above SP goes to pc, SP moves up one slot, nothing else changes. The
placement is the decision D1, D6, D7 (log 13). -/
def Obligations.RetPullsThePc : Prop :=
  ∀ s : State, (s.regValue regSP).getLsbD 0 = false →
    ∃ t, exec .ret s = .next t ∧ t.pc = wordAt s (s.regValue regSP + 2#16) ∧
      RegWritten s t regSP (s.regValue regSP + 2#16) ∧ t.flags = s.flags ∧ MemorySame s t

/-- A RET right after a CALL resumes after the CALL with every register, the mask and the flags as they were before it.
Decisions D1, D6, D7 (log 13). -/
def Obligations.RetUndoesCall : Prop :=
  ∀ (s t : State),
    (∀ x, exec (.callReg x) s = .next t →
      ∃ u, exec .ret t = .next u ∧ u.pc = s.pc + 2#16 ∧ RegsSame s u ∧ u.flags = s.flags) ∧
    (∀ imm, exec (.callImm imm) s = .next t →
      ∃ u, exec .ret t = .next u ∧ u.pc = s.pc + 4#16 ∧ RegsSame s u ∧ u.flags = s.flags)

/-! ### Stack -/

/-- R160: PUSH at an even SP, every register: the value read before SP moves is stored at SP, SP moves down one slot.
Decisions D1, D6, D23 (log 13). -/
def Obligations.PushStoresAtSpAndMovesIt : Prop :=
  ∀ (s : State) (x : RegNum), (s.regValue regSP).getLsbD 0 = false →
    ∃ t, exec (.push x) s = .next t ∧ PushEffect s t (s.regValue x) ∧ t.pc = s.pc + 2#16

/-- R161: PULL at an even SP into any register but x1: SP moves up one slot and the word there goes to rX (for x0 its low
byte to the mask). PULL x1 stops with PullToSP, whatever SP is (decision D23, log 10). Placement: D1, D6 (log 13). -/
def Obligations.PullLoadsAboveSpAndMovesIt : Prop :=
  ∀ (s : State) (x : RegNum),
    (x ≠ regSP → (s.regValue regSP).getLsbD 0 = false →
      ∃ t, exec (.pull x) s = .next t ∧
        (∀ n, n ≠ regINT → t.regValue n =
          if n = x then wordAt s (s.regValue regSP + 2#16)
          else if n = regSP then s.regValue regSP + 2#16 else s.regValue n) ∧
        t.imask = (if x = regINT then loByte (wordAt s (s.regValue regSP + 2#16)) else s.imask) ∧
        t.flags = s.flags ∧ t.pc = s.pc + 2#16 ∧ MemorySame s t) ∧
    (x = regSP → exec (.pull x) s = .fault .pullToSP)

/-- R60, R162: a PULL right after a PUSH brings the pushed word back and SP to where it was, whatever the two registers
are but SP as the PULL's; no other register changes, nor the mask unless x0 is pulled. Decisions D1, D6, D22 (logs 13,
20); that PUSH x1 pushes the old SP is the decision D23 (log 13). -/
def Obligations.PullAfterPushReturnsThePushedWord : Prop :=
  ∀ (s t : State) (x y : RegNum), y ≠ regSP → exec (.push x) s = .next t →
    ∃ u, exec (.pull y) t = .next u ∧ u.regValue regSP = s.regValue regSP ∧
      (y ≠ regINT → u.regValue y = s.regValue x) ∧ (y = regINT → u.imask = loByte (s.regValue x)) ∧
      (y ≠ regINT → u.imask = s.imask) ∧
      (∀ n, n ≠ regINT → n ≠ y → u.regValue n = s.regValue n) ∧ u.flags = s.flags

/-- R51: LDW, SDW, PUSH, PULL, CALL and RET stop when their word address is odd, with that address. The stop is the
decision D3 (log 9); that the address is SP for PUSH and CALL and SP + 2 for RET and PULL rests on the decisions D1 and D6
(log 13); PULL x1 stops otherwise (decision D23, log 10). -/
def Obligations.OddDataAddressStops : Prop :=
  ∀ (s : State) (x : RegNum),
    (∀ y, (s.regValue y).getLsbD 0 = true →
      exec (.ldwReg x y) s = .fault (.misalignedData (s.regValue y)) ∧
      exec (.sdwReg x y) s = .fault (.misalignedData (s.regValue y))) ∧
    (∀ addr : Word, addr.getLsbD 0 = true →
      exec (.ldwImm x addr) s = .fault (.misalignedData addr) ∧
      exec (.sdwImm x addr) s = .fault (.misalignedData addr)) ∧
    ((s.regValue regSP).getLsbD 0 = true →
      exec (.push x) s = .fault (.misalignedData (s.regValue regSP)) ∧
      exec (.callReg x) s = .fault (.misalignedData (s.regValue regSP)) ∧
      (∀ imm, exec (.callImm imm) s = .fault (.misalignedData (s.regValue regSP))) ∧
      exec .ret s = .fault (.misalignedData (s.regValue regSP + 2#16)) ∧
      (x ≠ regSP → exec (.pull x) s = .fault (.misalignedData (s.regValue regSP + 2#16))))

/-! ### System and step -/

/-- R170: INT stops with the terminal event SoftwareInterrupt in every state, and so does a step that meets it.
The terminal event is the decision D18 (log 7). -/
def Obligations.IntEndsTheRun : Prop :=
  ∀ s : State, exec .int s = .refused .softwareInterrupt ∧
    (s.iflags &&& s.imask = 0x00#8 → s.pc.getLsbD 0 = false →
      (∀ imm, decode (wordAt s s.pc) imm = .instr .int) → step s = .refused .softwareInterrupt)

/-- R193: with no enabled flag set and an even pc, a step is exec of the instruction that the four bytes from pc decode
to, at the state in which the interrupt check has taken its sample of IFLAGS (log 22) and nothing else has changed. -/
def Obligations.StepRunsTheDecodedInstruction : Prop :=
  ∀ (s : State) (i : Instr) (rest : List Byte), s.iflags &&& s.imask = 0x00#8 → s.pc.getLsbD 0 = false →
    decodeBytes [Memory.read s.mem s.pc.toNat, Memory.read s.mem (s.pc + 1#16).toNat,
      Memory.read s.mem (s.pc + 2#16).toNat, Memory.read s.mem (s.pc + 3#16).toNat] = .ok i rest →
    step s = exec i s.sampled ∧ s.sampled.gpr = s.gpr ∧ s.sampled.imask = s.imask ∧ s.sampled.pc = s.pc ∧
      s.sampled.flags = s.flags ∧ s.sampled.mem = s.mem

/-- R184, R185, R193: an enabled flag that is set stops the step before anything else, with all the enabled flags.
Decisions D15 (log 18), D16 (log 8), D30 (log 24). -/
def Obligations.EnabledInterruptStopsBeforeFetch : Prop :=
  ∀ s : State, s.iflags &&& s.imask ≠ 0x00#8 → step s = .fault (.interruptEntry (s.iflags &&& s.imask))

/-- R184: with a zero mask no step ends in an interrupt entry, whatever the environment does. -/
def Obligations.ZeroMaskNeverEntersAnInterrupt : Prop :=
  ∀ (s : State) (b : Byte), s.imask = 0x00#8 → step s ≠ .fault (.interruptEntry b)

/-- R56: an odd pc stops the fetch. Decision D4 (log 9). -/
def Obligations.OddPcStopsTheFetch : Prop :=
  ∀ s : State, s.iflags &&& s.imask = 0x00#8 → s.pc.getLsbD 0 = true → step s = .fault (.misalignedFetch s.pc)

/-- R90: a core word in a reserved class stops the step with that word. Decision D9 (log 11). -/
def Obligations.ReservedWordStopsTheStep : Prop :=
  ∀ (s : State) (c : ReservedClass), s.iflags &&& s.imask = 0x00#8 → s.pc.getLsbD 0 = false →
    reservedClass (wordAt s s.pc) = some c → step s = .fault (.reservedInstruction (wordAt s s.pc))

/-- R140, R30: a jump to an odd target completes, and the next fetch stops. Decision D4 (log 9). -/
def Obligations.JumpToOddTargetStopsAtTheNextFetch : Prop :=
  ∀ (s : State) (target : Word), target.getLsbD 0 = true → s.imask = 0x00#8 →
    ∃ t, exec (.jmpImm target) s = .next t ∧ step t = .fault (.misalignedFetch target)

/-- R181: every fault of a step is one of the table's and arises as the table says, and the only other stop is
SoftwareInterrupt at an INT. MisalignedData carries the address that the instruction accesses in the state it runs in,
where the interrupt check has taken its sample (log 22). The stops are decisions (D3, D4, D9, D16, D18, D23; logs 7 to
11); the addresses of stack accesses rest on D1 and D6 (log 13). -/
def Obligations.EveryStopOfAStepIsListed : Prop :=
  ∀ s : State,
    (∀ b, step s = .fault (.interruptEntry b) → b = s.iflags &&& s.imask ∧ b ≠ 0x00#8) ∧
    (∀ p, step s = .fault (.misalignedFetch p) → p = s.pc ∧ p.getLsbD 0 = true) ∧
    (∀ w, step s = .fault (.reservedInstruction w) → w = wordAt s s.pc ∧ (reservedClass w).isSome = true) ∧
    (∀ a, step s = .fault (.misalignedData a) → a.getLsbD 0 = true ∧
      ∃ i, decode (wordAt s s.pc) (wordAt s (s.pc + 2#16)) = .instr i ∧ accessAddress s.sampled i = some a) ∧
    (step s = .fault .pullToSP → decode (wordAt s s.pc) (wordAt s (s.pc + 2#16)) = .instr (.pull regSP)) ∧
    (∀ r, step s = .refused r →
      r = .softwareInterrupt ∧ decode (wordAt s s.pc) (wordAt s (s.pc + 2#16)) = .instr .int)

/-- R63: a word that SDW stores at the address of the next instruction is what the next step fetches. Decision D22
(log 20). -/
def Obligations.StoredWordIsFetchedByTheNextStep : Prop :=
  ∀ (s : State) (x : RegNum) (i : Instr), s.imask = 0x00#8 → s.pc.getLsbD 0 = false →
    (s.regValue x).getLsbD 8 = false → (∀ imm, decode (s.regValue x) imm = .instr i) →
    ∃ t, exec (.sdwImm x (s.pc + 4#16)) s = .next t ∧ step t = exec i t.sampled

/-! ### Invariants and whole-machine rules -/

/-- The memory of the model keeps its canonical form (log 1) in every step. -/
def Obligations.StepKeepsMemoryCanonical : Prop :=
  ∀ s t : State, Memory.wf s.mem → step s = .next t → Memory.wf t.mem

/-- The state at reset meets the two invariants that every step keeps. It rests on the model's own choices at reset: no
byte listed (log 1) and the flags clear (log 2). -/
def Obligations.ResetMeetsTheInvariants : Prop :=
  Memory.wf State.reset.mem ∧ ¬(State.reset.flags.fz = true ∧ State.reset.flags.fs = true)

/-- R148: FZ and FS are never both set by an instruction; a state in which they are not both set steps only to such. -/
def Obligations.StepKeepsZeroAndSignExclusive : Prop :=
  ∀ s t : State, ¬(s.flags.fz = true ∧ s.flags.fs = true) → step s = .next t →
    ¬(t.flags.fz = true ∧ t.flags.fs = true)

/-- R32: only the eight ALU instructions write a flag. -/
def Obligations.OnlyAluInstructionsWriteFlags : Prop :=
  ∀ (s t : State) (i : Instr), isAlu i = false → exec i s = .next t → t.flags = s.flags

/-- R23, R25, R27: a register changes only as an instruction's destination or as SP in PUSH, PULL, CALL and RET; the mask
changes only when x0 is the destination. -/
def Obligations.OnlyDestinationsAndTheStackPointerAreWritten : Prop :=
  ∀ (s t : State) (i : Instr), exec i s = .next t →
    (∀ n, n ≠ regINT → destination i ≠ some n → (n = regSP → movesSP i = false) → t.regValue n = s.regValue n) ∧
    (destination i ≠ some regINT → t.imask = s.imask)

/-- R52: only SDW, PUSH and CALL change a byte of memory. -/
def Obligations.OnlyStoresChangeMemory : Prop :=
  ∀ (s t : State) (i : Instr), storesWord i = false → exec i s = .next t → MemorySame s t

/-- R26: no instruction sets or clears an interrupt flag: the values that the environment still has to present are those
of before without the ones sampled, exactly one for each read of x0 that the instruction makes (R24). Decision D17
(log 4). -/
def Obligations.NoInstructionChangesTheInterruptFlags : Prop :=
  ∀ (s t : State) (i : Instr), exec i s = .next t →
    t.irqInputs = s.irqInputs.drop ((registersRead i).count regINT)

/-- R29, R30: an instruction that is not of the control-flow family ends with pc at the next sequential instruction,
modulo 2^16 (decision D5, log 14), which is even if pc was. -/
def Obligations.OtherInstructionsAdvanceThePcByTheirLength : Prop :=
  ∀ (s t : State) (i : Instr), isControlFlow i = false → exec i s = .next t →
    t.pc.toNat = (s.pc.toNat + i.lengthBytes) % 65536 ∧ (s.pc.getLsbD 0 = false → t.pc.getLsbD 0 = false)
end

