-- ==== Sys2Proof/Laws/Memory.lean ====
section
/-! SUPPORT. The laws of memory: a read after a write, bytes that a write leaves alone, and the canonical
form (20_memory.md R53, R54). -/

namespace Sys2Proof.Machine

/-! ### Reading -/

theorem Memory.read_nil (a : Nat) : Memory.read [] a = Config.unlistedByte := rfl

theorem Memory.read_cons_self (m : Memory) (a : Nat) (v : Byte) : Memory.read ((a, v) :: m) a = v := by
  simp [Memory.read]

theorem Memory.read_cons_other (m : Memory) {a b : Nat} (v : Byte) (h : b ≠ a) :
    Memory.read ((b, v) :: m) a = Memory.read m a := by
  simp [Memory.read, h]

theorem Memory.read_of_absent {m : Memory} {a : Nat} (h : ∀ c ∈ m, c.1 ≠ a) : Memory.read m a = Config.unlistedByte := by
  induction m with
  | nil => rfl
  | cons c m ih =>
    rw [show c = (c.1, c.2) from rfl, read_cons_other _ _ (h c (by simp))]
    exact ih fun d hd => h d (by simp [hd])

theorem Memory.read_filter_other (m : Memory) {a k : Nat} (h : k ≠ a) :
    Memory.read (m.filter (fun c => c.1 != a)) k = Memory.read m k := by
  induction m with
  | nil => rfl
  | cons c m ih =>
    obtain ⟨b, v⟩ := c
    by_cases hb : b = a
    · subst hb
      simpa [Memory.read, Ne.symm h] using ih
    · by_cases hk : b = k
      · subst hk
        simp [Memory.read, hb]
      · simpa [Memory.read, hb, hk] using ih

theorem Memory.read_filter_self (m : Memory) (a : Nat) :
    Memory.read (m.filter (fun c => c.1 != a)) a = Config.unlistedByte :=
  read_of_absent fun c hc => by simpa using (List.mem_filter.1 hc).2

theorem Memory.read_insertCell_self {m : Memory} {a : Nat} (v : Byte) (h : ∀ c ∈ m, c.1 ≠ a) :
    Memory.read (Memory.insertCell (a, v) m) a = v := by
  induction m with
  | nil => exact read_cons_self _ _ _
  | cons c m ih =>
    unfold Memory.insertCell
    split
    · exact read_cons_self _ _ _
    · rw [show c = (c.1, c.2) from rfl, read_cons_other _ _ (h c (by simp))]
      exact ih fun d hd => h d (by simp [hd])

theorem Memory.read_insertCell_other (m : Memory) {a k : Nat} (v : Byte) (h : k ≠ a) :
    Memory.read (Memory.insertCell (a, v) m) k = Memory.read m k := by
  induction m with
  | nil => exact read_cons_other _ _ (Ne.symm h)
  | cons c m ih =>
    unfold Memory.insertCell
    split
    · exact read_cons_other _ _ (Ne.symm h)
    · simp only [Memory.read, ih]

/-! ### One byte written -/

/-- A byte written is read back. -/
theorem Memory.read_write_self (m : Memory) (a : Nat) (v : Byte) : Memory.read (Memory.write m a v) a = v := by
  unfold Memory.write
  split
  · next h => rw [read_filter_self, h]
  · exact read_insertCell_self v fun c hc => by simpa using (List.mem_filter.1 hc).2

/-- A write leaves every other byte alone. -/
theorem Memory.read_write_other (m : Memory) {a k : Nat} (v : Byte) (h : k ≠ a) :
    Memory.read (Memory.write m a v) k = Memory.read m k := by
  unfold Memory.write
  split
  · exact read_filter_other m h
  · rw [read_insertCell_other _ _ h, read_filter_other m h]

/-! ### The canonical form -/

theorem Memory.wf_nil : Memory.wf [] := by simp [Memory.wf]

theorem Memory.wf_filter {m : Memory} (h : Memory.wf m) (a : Nat) : Memory.wf (m.filter (fun c => c.1 != a)) :=
  ⟨h.1.filter _, fun c hc => h.2 c (List.mem_filter.1 hc).1⟩

theorem Memory.mem_insertCell {m : Memory} {c d : Host.Cell} : d ∈ Memory.insertCell c m ↔ d = c ∨ d ∈ m := by
  induction m with
  | nil => simp [Memory.insertCell]
  | cons e m ih =>
    unfold Memory.insertCell
    split
    · simp
    · simp only [List.mem_cons, ih]; tauto

theorem Memory.pairwise_insertCell {m : Memory} {c : Host.Cell} (h : m.Pairwise (fun c d => c.1 < d.1))
    (hc : ∀ d ∈ m, d.1 ≠ c.1) : (Memory.insertCell c m).Pairwise (fun c d => c.1 < d.1) := by
  induction m with
  | nil => simp [Memory.insertCell]
  | cons e m ih =>
    have he := List.pairwise_cons.1 h
    unfold Memory.insertCell
    split
    · next hlt =>
      refine List.pairwise_cons.2 ⟨fun d hd => ?_, h⟩
      rcases List.mem_cons.1 hd with rfl | hd
      · exact hlt
      · exact Nat.lt_trans hlt (he.1 d hd)
    · next hge =>
      refine List.pairwise_cons.2 ⟨fun d hd => ?_, ih he.2 fun d hd => hc d (by simp [hd])⟩
      rcases Memory.mem_insertCell.1 hd with rfl | hd
      · have := hc e (by simp); omega
      · exact he.1 d hd

/-- Every write of an existing byte keeps the canonical form. -/
theorem Memory.wf_write {m : Memory} (h : Memory.wf m) {a : Nat} (ha : a < 65536) (v : Byte) :
    Memory.wf (Memory.write m a v) := by
  unfold Memory.write
  split
  · exact wf_filter h a
  · next hv =>
    refine ⟨pairwise_insertCell (wf_filter h a).1 fun d hd => by simpa using (List.mem_filter.1 hd).2, fun c hc => ?_⟩
    rcases Memory.mem_insertCell.1 hc with rfl | hc
    · exact ⟨ha, hv⟩
    · exact (wf_filter h a).2 c hc

/-! ### Words -/

/-- The bits of a word put together from its two bytes. -/
theorem getLsbD_wordOfBytes (lo hi : Byte) (i : Nat) :
    (wordOfBytes lo hi).getLsbD i = if i < 8 then lo.getLsbD i else hi.getLsbD (i - 8) := by
  show (hi ++ lo : BitVec (8 + 8)).getLsbD i = _
  rw [BitVec.getLsbD_append]

theorem wordOfBytes_lo_hi (w : Word) : wordOfBytes (loByte w) (hiByte w) = w := by
  refine BitVec.eq_of_getLsbD_eq fun i hi => ?_
  rw [getLsbD_wordOfBytes]
  split
  · next h => simp [loByte, h]
  · next h => simp [hiByte, show i - 8 < 8 by omega, show 8 + (i - 8) = i by omega]

theorem loByte_wordOfBytes (lo hi : Byte) : loByte (wordOfBytes lo hi) = lo := by
  refine BitVec.eq_of_getLsbD_eq fun i hi => ?_
  simp [loByte, getLsbD_wordOfBytes, hi]

theorem hiByte_wordOfBytes (lo hi : Byte) : hiByte (wordOfBytes lo hi) = hi := by
  refine BitVec.eq_of_getLsbD_eq fun i h => ?_
  simp [hiByte, getLsbD_wordOfBytes, h]

theorem toNat_add_one_ne (a : Word) : (a + 1#16).toNat ≠ a.toNat := by
  have := a.isLt
  rw [BitVec.toNat_add]; simp; omega

/-- R54: a byte that is neither of the two written is as before. -/
theorem Memory.read_writeWord_other (m : Memory) (addr v : Word) {k : Nat} (h0 : k ≠ addr.toNat)
    (h1 : k ≠ (addr + 1#16).toNat) : Memory.read (m.writeWord addr v) k = Memory.read m k := by
  rw [Memory.writeWord, read_write_other _ _ h1, read_write_other _ _ h0]

theorem Memory.read_writeWord_lo (m : Memory) (addr v : Word) :
    Memory.read (m.writeWord addr v) addr.toNat = loByte v := by
  rw [Memory.writeWord, read_write_other _ _ (toNat_add_one_ne addr).symm, read_write_self]

theorem Memory.read_writeWord_hi (m : Memory) (addr v : Word) :
    Memory.read (m.writeWord addr v) (addr + 1#16).toNat = hiByte v := by
  rw [Memory.writeWord, read_write_self]

/-- R60: a word stored is the word loaded from the same address. -/
theorem Memory.readWord_writeWord_self (m : Memory) (addr v : Word) : (m.writeWord addr v).readWord addr = v := by
  rw [Memory.readWord, read_writeWord_lo, read_writeWord_hi, wordOfBytes_lo_hi]

theorem Memory.wf_writeWord {m : Memory} (h : Memory.wf m) (addr v : Word) : Memory.wf (m.writeWord addr v) :=
  wf_write (wf_write h addr.isLt _) (addr + 1#16).isLt _

end Sys2Proof.Machine
end

