-- ==== Sys2Proof/Laws/Decode.lean ====
section
/-! SUPPORT. The fields of a core word that is put together from its parts (30_encoding.md R81), and bytes of words. -/

namespace Sys2Proof

/-- The bits of a core word put together from its high byte and its register fields. -/
theorem getLsbD_coreWord (h : Byte) (x y : RegNum) (k : Nat) :
    (coreWord h x y).getLsbD k =
      if k < 4 then y.getLsbD k else if k < 8 then x.getLsbD (k - 4) else h.getLsbD (k - 8) := by
  show ((h ++ x : BitVec (8 + 4)) ++ y : BitVec (8 + 4 + 4)).getLsbD k = _
  rw [BitVec.getLsbD_append]
  split
  · rfl
  · rw [BitVec.getLsbD_append]
    split
    · next h1 => rw [if_pos (by omega)]
    · next h1 => rw [if_neg (by omega), show k - 4 - 4 = k - 8 by omega]

@[simp] theorem fieldX_coreWord (h : Byte) (x y : RegNum) : fieldX (coreWord h x y) = x := by
  refine BitVec.eq_of_getLsbD_eq fun k hk => ?_
  simp [fieldX, getLsbD_coreWord, hk, show ¬ 4 + k < 4 by omega, show 4 + k < 8 by omega]

@[simp] theorem fieldY_coreWord (h : Byte) (x y : RegNum) : fieldY (coreWord h x y) = y := by
  refine BitVec.eq_of_getLsbD_eq fun k hk => ?_
  simp [fieldY, getLsbD_coreWord, hk]

@[simp] theorem fieldI_coreWord (h : Byte) (x y : RegNum) : fieldI (coreWord h x y) = h.getLsbD 0 := by
  rw [fieldI, getLsbD_coreWord]; rfl

@[simp] theorem fieldA_coreWord (h : Byte) (x y : RegNum) : fieldA (coreWord h x y) = h.getLsbD 4 := by
  rw [fieldA, getLsbD_coreWord]; rfl

@[simp] theorem fieldAAA_coreWord (h : Byte) (x y : RegNum) : fieldAAA (coreWord h x y) = h.extractLsb' 1 3 := by
  refine BitVec.eq_of_getLsbD_eq fun k hk => ?_
  simp [fieldAAA, getLsbD_coreWord, hk, show ¬ 9 + k < 4 by omega, show ¬ 9 + k < 8 by omega,
    show 9 + k - 8 = 1 + k by omega]

@[simp] theorem fieldOOO_coreWord (h : Byte) (x y : RegNum) : fieldOOO (coreWord h x y) = h.extractLsb' 5 3 := by
  refine BitVec.eq_of_getLsbD_eq fun k hk => ?_
  simp [fieldOOO, getLsbD_coreWord, hk, show ¬ 13 + k < 4 by omega, show ¬ 13 + k < 8 by omega,
    show 13 + k - 8 = 5 + k by omega]

/-- Every core word is put together from its high byte and its register fields. -/
theorem coreWord_fields (w : Word) : coreWord (hiByte w) (fieldX w) (fieldY w) = w := by
  refine BitVec.eq_of_getLsbD_eq fun k hk => ?_
  rw [getLsbD_coreWord]
  split
  · next h => simp [fieldY, h]
  · split
    · simp [fieldX, show k - 4 < 4 by omega, show 4 + (k - 4) = k by omega]
    · simp [hiByte, show k - 8 < 8 by omega, show 8 + (k - 8) = k by omega]

/-- A mask over the high byte reads nothing of the register fields. -/
theorem coreWord_and_high (h m : Byte) (x y : RegNum) :
    coreWord h x y &&& coreWord m 0 0 = coreWord (h &&& m) 0 0 := by
  refine BitVec.eq_of_getLsbD_eq fun k _ => ?_
  simp only [BitVec.getLsbD_and, getLsbD_coreWord]
  split
  · simp
  · split <;> simp

theorem coreWord_high_injective {h k : Byte} {x y x' y' : RegNum} (e : coreWord h x y = coreWord k x' y') : h = k := by
  refine BitVec.eq_of_getLsbD_eq fun j _ => ?_
  have := congrArg (fun w : Word => w.getLsbD (j + 8)) e
  simpa [getLsbD_coreWord, show ¬ j + 8 < 4 by omega] using this

theorem coreWord_high_eq_iff (h k : Byte) : coreWord h 0 0 = coreWord k 0 0 ↔ h = k :=
  ⟨coreWord_high_injective, fun e => by rw [e]⟩

/-- The reserved class depends on the high byte alone (R90). -/
theorem reservedClass_coreWord (h : Byte) (x y : RegNum) :
    reservedClass (coreWord h x y) = reservedClass (coreWord h 0 0) := by
  have e1 : (0xE000#16 : Word) = coreWord 0xE0#8 0 0 := by decide
  have e2 : (0x1000#16 : Word) = coreWord 0x10#8 0 0 := by decide
  have e3 : (0xFE00#16 : Word) = coreWord 0xFE#8 0 0 := by decide
  have e4 : (0xFF00#16 : Word) = coreWord 0xFF#8 0 0 := by decide
  have e5 : (0xF100#16 : Word) = coreWord 0xF1#8 0 0 := by decide
  simp only [reservedClass, e1, e2, e3, e4, e5, coreWord_and_high]

theorem announcesImmediate_coreWord (h : Byte) (x y : RegNum) :
    announcesImmediate (coreWord h x y) = h.getLsbD 0 := fieldI_coreWord h x y

/-! ### Bytes of words -/

theorem bytesOfWords_length (ws : List Word) : (bytesOfWords ws).length = 2 * ws.length := by
  induction ws with
  | nil => rfl
  | cons w ws ih => simp [bytesOfWords, ih]; omega

/-- R83: a word that announces no immediate is decoded alone. -/
theorem decode_imm_irrelevant (core a b : Word) (h : fieldI core = false) : decode core a = decode core b := by
  simp [decode, decodeAlu, decodeControl, h]

/-- The decoder on the bytes of a one-word instruction. -/
theorem decodeBytes_one {core : Word} {i : Instr} (rest : List Byte) (h : fieldI core = false)
    (hd : decode core 0#16 = .instr i) : decodeBytes (bytesOfWords [core] ++ rest) = .ok i rest := by
  have hd' : decode core (nextWord rest) = .instr i := (decode_imm_irrelevant core _ _ h).trans hd
  simp [bytesOfWords, decodeBytes, Machine.wordOfBytes_lo_hi, h, hd']

/-- The decoder on the bytes of a two-word instruction. -/
theorem decodeBytes_two {core imm : Word} {i : Instr} (rest : List Byte) (h : fieldI core = true)
    (hd : decode core imm = .instr i) : decodeBytes (bytesOfWords [core, imm] ++ rest) = .ok i rest := by
  simp [bytesOfWords, decodeBytes, nextWord, Machine.wordOfBytes_lo_hi, h, hd]

end Sys2Proof
end

