-- ==== Sys2Proof/Laws/State.lean ====
section
/-! SUPPORT. One lemma per field per update of State, so that no proof unfolds a record update. -/

namespace Sys2Proof.Machine

variable (s : State)

/-! ### `State.setPc` -/

@[simp] theorem State.setPc_gpr (v : Word) : (s.setPc v).gpr = s.gpr := rfl
@[simp] theorem State.setPc_imask (v : Word) : (s.setPc v).imask = s.imask := rfl
@[simp] theorem State.setPc_pc (v : Word) : (s.setPc v).pc = v := rfl
@[simp] theorem State.setPc_flags (v : Word) : (s.setPc v).flags = s.flags := rfl
@[simp] theorem State.setPc_mem (v : Word) : (s.setPc v).mem = s.mem := rfl
@[simp] theorem State.setPc_irqInputs (v : Word) : (s.setPc v).irqInputs = s.irqInputs := rfl
@[simp] theorem State.setPc_draws (v : Word) : (s.setPc v).draws = s.draws := rfl

/-! ### `State.setFlags` -/

@[simp] theorem State.setFlags_gpr (v : Flags) : (s.setFlags v).gpr = s.gpr := rfl
@[simp] theorem State.setFlags_imask (v : Flags) : (s.setFlags v).imask = s.imask := rfl
@[simp] theorem State.setFlags_pc (v : Flags) : (s.setFlags v).pc = s.pc := rfl
@[simp] theorem State.setFlags_flags (v : Flags) : (s.setFlags v).flags = v := rfl
@[simp] theorem State.setFlags_mem (v : Flags) : (s.setFlags v).mem = s.mem := rfl
@[simp] theorem State.setFlags_irqInputs (v : Flags) : (s.setFlags v).irqInputs = s.irqInputs := rfl
@[simp] theorem State.setFlags_draws (v : Flags) : (s.setFlags v).draws = s.draws := rfl

/-! ### `State.setMem` -/

@[simp] theorem State.setMem_gpr (v : Memory) : (s.setMem v).gpr = s.gpr := rfl
@[simp] theorem State.setMem_imask (v : Memory) : (s.setMem v).imask = s.imask := rfl
@[simp] theorem State.setMem_pc (v : Memory) : (s.setMem v).pc = s.pc := rfl
@[simp] theorem State.setMem_flags (v : Memory) : (s.setMem v).flags = s.flags := rfl
@[simp] theorem State.setMem_mem (v : Memory) : (s.setMem v).mem = v := rfl
@[simp] theorem State.setMem_irqInputs (v : Memory) : (s.setMem v).irqInputs = s.irqInputs := rfl
@[simp] theorem State.setMem_draws (v : Memory) : (s.setMem v).draws = s.draws := rfl

/-! ### `State.setIMask` -/

@[simp] theorem State.setIMask_gpr (v : Byte) : (s.setIMask v).gpr = s.gpr := rfl
@[simp] theorem State.setIMask_imask (v : Byte) : (s.setIMask v).imask = v := rfl
@[simp] theorem State.setIMask_pc (v : Byte) : (s.setIMask v).pc = s.pc := rfl
@[simp] theorem State.setIMask_flags (v : Byte) : (s.setIMask v).flags = s.flags := rfl
@[simp] theorem State.setIMask_mem (v : Byte) : (s.setIMask v).mem = s.mem := rfl
@[simp] theorem State.setIMask_irqInputs (v : Byte) : (s.setIMask v).irqInputs = s.irqInputs := rfl
@[simp] theorem State.setIMask_draws (v : Byte) : (s.setIMask v).draws = s.draws := rfl

/-! ### `State.setGpr` -/

@[simp] theorem State.setGpr_gpr (v : Vector Word 15) : (s.setGpr v).gpr = v := rfl
@[simp] theorem State.setGpr_imask (v : Vector Word 15) : (s.setGpr v).imask = s.imask := rfl
@[simp] theorem State.setGpr_pc (v : Vector Word 15) : (s.setGpr v).pc = s.pc := rfl
@[simp] theorem State.setGpr_flags (v : Vector Word 15) : (s.setGpr v).flags = s.flags := rfl
@[simp] theorem State.setGpr_mem (v : Vector Word 15) : (s.setGpr v).mem = s.mem := rfl
@[simp] theorem State.setGpr_irqInputs (v : Vector Word 15) : (s.setGpr v).irqInputs = s.irqInputs := rfl
@[simp] theorem State.setGpr_draws (v : Vector Word 15) : (s.setGpr v).draws = s.draws := rfl

/-! ### `State.drawn` -/

@[simp] theorem State.drawn_gpr : s.drawn.gpr = s.gpr := rfl
@[simp] theorem State.drawn_imask : s.drawn.imask = s.imask := rfl
@[simp] theorem State.drawn_pc : s.drawn.pc = s.pc := rfl
@[simp] theorem State.drawn_flags : s.drawn.flags = s.flags := rfl
@[simp] theorem State.drawn_mem : s.drawn.mem = s.mem := rfl
@[simp] theorem State.drawn_irqInputs : s.drawn.irqInputs = s.irqInputs := rfl
@[simp] theorem State.drawn_draws : s.drawn.draws = s.draws + 1 := rfl

/-! ### `State.sampled` -/

@[simp] theorem State.sampled_gpr : s.sampled.gpr = s.gpr := rfl
@[simp] theorem State.sampled_imask : s.sampled.imask = s.imask := rfl
@[simp] theorem State.sampled_pc : s.sampled.pc = s.pc := rfl
@[simp] theorem State.sampled_flags : s.sampled.flags = s.flags := rfl
@[simp] theorem State.sampled_mem : s.sampled.mem = s.mem := rfl
@[simp] theorem State.sampled_irqInputs : s.sampled.irqInputs = s.irqInputs.tail := rfl
@[simp] theorem State.sampled_draws : s.sampled.draws = s.draws + 1 := rfl

/-! ### `State.afterRead`: a register read changes no state of the core -/

@[simp] theorem State.afterRead_gpr (n : RegNum) : (s.afterRead n).gpr = s.gpr := by
  unfold State.afterRead; split <;> rfl
@[simp] theorem State.afterRead_imask (n : RegNum) : (s.afterRead n).imask = s.imask := by
  unfold State.afterRead; split <;> rfl
@[simp] theorem State.afterRead_pc (n : RegNum) : (s.afterRead n).pc = s.pc := by
  unfold State.afterRead; split <;> rfl
@[simp] theorem State.afterRead_flags (n : RegNum) : (s.afterRead n).flags = s.flags := by
  unfold State.afterRead; split <;> rfl
@[simp] theorem State.afterRead_mem (n : RegNum) : (s.afterRead n).mem = s.mem := by
  unfold State.afterRead; split <;> rfl

theorem State.afterRead_irqInputs (n : RegNum) :
    (s.afterRead n).irqInputs = s.irqInputs.drop ([n].count regINT) := by
  by_cases h : n = regINT <;> simp [State.afterRead, h]

theorem State.afterRead_int : s.afterRead regINT = s.sampled := rfl

theorem State.afterRead_gpr_reg {n : RegNum} (h : n ≠ regINT) : s.afterRead n = s := if_neg h

/-! ### `State.writeReg`: a register write changes the register's storage alone -/

@[simp] theorem State.writeReg_pc (n : RegNum) (v : Word) : (s.writeReg n v).pc = s.pc := by
  unfold State.writeReg; split <;> rfl
@[simp] theorem State.writeReg_flags (n : RegNum) (v : Word) : (s.writeReg n v).flags = s.flags := by
  unfold State.writeReg; split <;> rfl
@[simp] theorem State.writeReg_mem (n : RegNum) (v : Word) : (s.writeReg n v).mem = s.mem := by
  unfold State.writeReg; split <;> rfl
@[simp] theorem State.writeReg_irqInputs (n : RegNum) (v : Word) : (s.writeReg n v).irqInputs = s.irqInputs := by
  unfold State.writeReg; split <;> rfl
@[simp] theorem State.writeReg_draws (n : RegNum) (v : Word) : (s.writeReg n v).draws = s.draws := by
  unfold State.writeReg; split <;> rfl

theorem State.writeReg_int (v : Word) : s.writeReg regINT v = s.setIMask (loByte v) := rfl

theorem State.writeReg_imask {n : RegNum} (h : n ≠ regINT) (v : Word) : (s.writeReg n v).imask = s.imask := by
  simp [State.writeReg, h]

theorem State.writeReg_int_gpr (v : Word) : (s.writeReg regINT v).gpr = s.gpr := rfl

/-! ### `State.regValue` -/

theorem gprIndex_injective {n k : RegNum} (hn : n ≠ regINT) (hk : k ≠ regINT) (h : gprIndex n = gprIndex k) : n = k := by
  have h1 : n.toNat ≠ 0 := fun e => hn (BitVec.eq_of_toNat_eq e)
  have h2 : k.toNat ≠ 0 := fun e => hk (BitVec.eq_of_toNat_eq e)
  have h3 : n.toNat - 1 = k.toNat - 1 := congrArg Fin.val h
  exact BitVec.eq_of_toNat_eq (by omega)

theorem State.regValue_int : s.regValue regINT = s.iflags ++ Config.x0LowRead s.draws := rfl

theorem State.regValue_gpr {n : RegNum} (h : n ≠ regINT) : s.regValue n = s.gpr[(gprIndex n).val]'(gprIndex n).isLt := if_neg h

/-- R23, R22: what was written to x1 to x15 is read back. -/
theorem State.regValue_writeReg_same {n : RegNum} (h : n ≠ regINT) (v : Word) : (s.writeReg n v).regValue n = v := by
  simp [State.writeReg, State.regValue, h]

/-- R23: a write leaves the other registers alone. -/
theorem State.regValue_writeReg_other {n k : RegNum} (hk : k ≠ n) (v : Word) :
    (s.writeReg n v).regValue k = s.regValue k := by
  by_cases hk0 : k = regINT
  · subst hk0
    simp [State.regValue, State.iflags]
  · by_cases hn0 : n = regINT
    · subst hn0
      simp [State.regValue, hk0, State.writeReg_int]
    · have hne : (gprIndex n).val ≠ (gprIndex k).val := fun e =>
        hk (gprIndex_injective hn0 hk0 (Fin.ext e)).symm
      rw [regValue_gpr _ hk0, regValue_gpr _ hk0]
      simp [State.writeReg, hn0, Vector.getElem_set_ne, hne]

/-- A register's value depends only on the registers, the inputs and the draws. -/
theorem State.regValue_congr {s t : State} (hg : t.gpr = s.gpr) (hi : t.irqInputs = s.irqInputs) (hd : t.draws = s.draws)
    (n : RegNum) : t.regValue n = s.regValue n := by
  simp [State.regValue, State.iflags, hg, hi, hd]

@[simp] theorem State.regValue_setPc (v : Word) (n : RegNum) : (s.setPc v).regValue n = s.regValue n := rfl
@[simp] theorem State.regValue_setFlags (v : Flags) (n : RegNum) : (s.setFlags v).regValue n = s.regValue n := rfl
@[simp] theorem State.regValue_setMem (v : Memory) (n : RegNum) : (s.setMem v).regValue n = s.regValue n := rfl
@[simp] theorem State.regValue_setIMask (v : Byte) (n : RegNum) : (s.setIMask v).regValue n = s.regValue n := rfl

/-- x1 to x15 are not touched by reading a register. -/
theorem State.regValue_afterRead {n : RegNum} (h : n ≠ regINT) (k : RegNum) :
    (s.afterRead k).regValue n = s.regValue n := by
  simp [State.regValue_gpr, h]

theorem State.regValue_drawn {n : RegNum} (h : n ≠ regINT) : s.drawn.regValue n = s.regValue n := by
  simp [State.regValue_gpr, h]

/-! ### `IFLAGS` (R26) -/

theorem State.iflags_cons {f : Byte} {rest : List Byte} (h : s.irqInputs = f :: rest) : s.iflags = f := by
  simp [State.iflags, h]

theorem State.iflags_nil (h : s.irqInputs = []) : s.iflags = Config.irqLines s.draws := by
  simp [State.iflags, h]

end Sys2Proof.Machine
end

