-- ==== Sys2Proof/Laws/Ops.lean ====
section
/-! SUPPORT. What each shared operation of Machine/Ops.lean can do, said once: memory access, the stack, the interrupt
check, fetch and decode. -/

namespace Sys2Proof.Machine

variable {s t : State} {f : Fault}

/-! ### `settle` -/

theorem settle_next {e : Except Fault State} : settle e = .next t ↔ e = .ok t := by
  cases e <;> simp [settle]

theorem settle_fault {e : Except Fault State} : settle e = .fault f ↔ e = .error f := by
  cases e <;> simp [settle]

theorem settle_not_refused {e : Except Fault State} {r : Refusal} : settle e ≠ .refused r := by
  cases e <;> simp [settle]

/-! ### Memory access (20_memory.md R51, R53, R54) -/

theorem memRead_even {addr : Word} (h : isOdd addr = false) : memRead s addr = .ok (s.mem.readWord addr) := by
  simp [memRead, h]

theorem memRead_odd {addr : Word} (h : isOdd addr = true) : memRead s addr = .error (.misalignedData addr) := by
  simp [memRead, h]

/-- All that MemRead can do. -/
theorem memRead_cases (s : State) (addr : Word) :
    (isOdd addr = true ∧ memRead s addr = .error (.misalignedData addr)) ∨
      (isOdd addr = false ∧ memRead s addr = .ok (s.mem.readWord addr)) := by
  cases h : isOdd addr <;> simp [memRead, h]

theorem memWrite_even {addr : Word} (h : isOdd addr = false) (v : Word) :
    memWrite s addr v = .ok (s.setMem (s.mem.writeWord addr v)) := by
  simp [memWrite, h]

theorem memWrite_odd {addr : Word} (h : isOdd addr = true) (v : Word) :
    memWrite s addr v = .error (.misalignedData addr) := by
  simp [memWrite, h]

/-- All that MemWrite can do. -/
theorem memWrite_cases (s : State) (addr v : Word) :
    (isOdd addr = true ∧ memWrite s addr v = .error (.misalignedData addr)) ∨
      (isOdd addr = false ∧ memWrite s addr v = .ok (s.setMem (s.mem.writeWord addr v))) := by
  cases h : isOdd addr <;> simp [memWrite, h]

/-! ### The stack (43_stack.md R162) -/

/-- StackPush at an even SP: one word stored at SP, SP one slot lower, nothing else. -/
theorem stackPush_even (h : isOdd (s.regValue regSP) = false) (v : Word) :
    stackPush s v = .ok ((s.setMem (s.mem.writeWord (s.regValue regSP) v)).writeReg regSP (s.regValue regSP - slot)) := by
  simp [stackPush, memWrite_even h]

theorem stackPush_odd (h : isOdd (s.regValue regSP) = true) (v : Word) :
    stackPush s v = .error (.misalignedData (s.regValue regSP)) := by
  simp [stackPush, memWrite_odd h]

theorem isOdd_add_slot (a : Word) : isOdd (a + slot) = isOdd a := by
  simp only [isOdd, slot, BitVec.getLsbD, BitVec.toNat_add, Nat.testBit_zero]
  congr 1
  simp

/-- StackPull at an even SP: the word one slot above SP, SP one slot higher, nothing else. -/
theorem stackPull_even (h : isOdd (s.regValue regSP) = false) :
    stackPull s = .ok (s.mem.readWord (pullAddr s), s.writeReg regSP (pullAddr s)) := by
  have h' : isOdd (pullAddr s) = false := by rw [pullAddr, isOdd_add_slot, h]
  simp [stackPull, memRead_even h']

theorem stackPull_odd (h : isOdd (s.regValue regSP) = true) :
    stackPull s = .error (.misalignedData (pullAddr s)) := by
  have h' : isOdd (pullAddr s) = true := by rw [pullAddr, isOdd_add_slot, h]
  simp [stackPull, memRead_odd h']

/-! ### Between instructions (60_exceptions.md R184, 20_memory.md R55) -/

theorem enabledFlags_eq (s : State) : enabledFlags s = s.iflags &&& s.imask := by
  unfold enabledFlags
  split
  · next h => simp [h]
  · rfl

theorem interruptCheck_quiet (h : s.iflags &&& s.imask = 0#8) : interruptCheck s = .ok s.sampled := by
  simp [interruptCheck, enabledFlags_eq, h]

theorem interruptCheck_entry (h : s.iflags &&& s.imask ≠ 0#8) :
    interruptCheck s = .error (.interruptEntry (s.iflags &&& s.imask)) := by
  simp [interruptCheck, enabledFlags_eq, h]

/-- R184: a zero mask keeps the check from firing whatever the flags are. -/
theorem interruptCheck_masked (h : s.imask = 0#8) : interruptCheck s = .ok s.sampled :=
  interruptCheck_quiet (by simp [h])

/-- Fetch depends on pc and memory alone. -/
theorem fetchDecode_congr (hp : t.pc = s.pc) (hm : t.mem = s.mem) : fetchDecode t = fetchDecode s := by
  simp [fetchDecode, fetch, hp, hm]

theorem fetchDecode_odd (h : isOdd s.pc = true) : fetchDecode s = .error (.misalignedFetch s.pc) := by
  simp [fetchDecode, fetch, h]

/-- What is fetched at an even pc: the core word, and the word after it where field i announces one (R55). -/
def fetchedImm (s : State) : Word :=
  if fieldI (s.mem.readWord s.pc) then s.mem.readWord (s.pc + 2#16) else 0#16

theorem fetchDecode_instr {i : Instr} (h : isOdd s.pc = false)
    (hd : decode (s.mem.readWord s.pc) (fetchedImm s) = .instr i) : fetchDecode s = .ok i := by
  simp only [fetchedImm] at hd
  simp [fetchDecode, fetch, h, hd]

theorem fetchDecode_reserved {c : ReservedClass} (h : isOdd s.pc = false)
    (hd : decode (s.mem.readWord s.pc) (fetchedImm s) = .reserved c) :
    fetchDecode s = .error (.reservedInstruction (s.mem.readWord s.pc)) := by
  simp only [fetchedImm] at hd
  simp [fetchDecode, fetch, h, hd]

end Sys2Proof.Machine
end

