-- ==== Sys2Proof/Laws/Exec.lean ====
section
/-! SUPPORT. What each shared operation of the instruction families can do, said once, and what a step can do. -/

namespace Sys2Proof.Machine

variable {s t : State}

/-! ### Operands (30_encoding.md R85): reading one changes no state of the core -/

@[simp] theorem Operand.after_gpr (s : State) (o : Operand) : (o.after s).gpr = s.gpr := by cases o <;> simp [Operand.after]
@[simp] theorem Operand.after_imask (s : State) (o : Operand) : (o.after s).imask = s.imask := by
  cases o <;> simp [Operand.after]
@[simp] theorem Operand.after_pc (s : State) (o : Operand) : (o.after s).pc = s.pc := by cases o <;> simp [Operand.after]
@[simp] theorem Operand.after_flags (s : State) (o : Operand) : (o.after s).flags = s.flags := by
  cases o <;> simp [Operand.after]
@[simp] theorem Operand.after_mem (s : State) (o : Operand) : (o.after s).mem = s.mem := by cases o <;> simp [Operand.after]

/-- Reading an operand takes one sample of `IFLAGS` when it is x0 and none otherwise (R24, R26). -/
theorem Operand.after_irqInputs (s : State) (o : Operand) :
    (o.after s).irqInputs = s.irqInputs.drop (match o with | .reg n => [n].count regINT | .imm _ => 0) := by
  cases o with
  | reg n => exact State.afterRead_irqInputs s n
  | imm v => rfl

/-- x1 to x15 are not touched by reading an operand. -/
theorem Operand.regValue_after {n : RegNum} (h : n ≠ regINT) (o : Operand) : (o.after s).regValue n = s.regValue n := by
  simp [State.regValue_gpr, h]

/-! ### The families' shared operations: what a next state is -/

/-- Every ALU instruction answers a next state that differs from its start in rX, the flags, the pc and the model's
bookkeeping of inputs and draws. -/
theorem aluFinish_next (s : State) (x : RegNum) (r : Word) (f : Flags) (len : Word) :
    aluFinish s x r f len = .next (((s.writeReg x r).setFlags f).setPc (s.pc + len)) := rfl

theorem logicFinish_next (s : State) (x : RegNum) (r : Word) (len : Word) :
    logicFinish s x r len =
      .next (((s.drawn.writeReg x r).setFlags (flagsLogic r s.draws)).setPc (s.pc + len)) := rfl

/-- LDW at an even address. -/
theorem loadOp_even {addr : Operand} (h : isOdd (addr.value s) = false) (x : RegNum) :
    loadOp x addr s = .next (((addr.after s).writeReg x (s.mem.readWord (addr.value s))).setPc (s.pc + addr.len)) := by
  simp [loadOp, memRead_even h, settle, npc]

theorem loadOp_odd {addr : Operand} (h : isOdd (addr.value s) = true) (x : RegNum) :
    loadOp x addr s = .fault (.misalignedData (addr.value s)) := by
  simp [loadOp, memRead_odd h, settle]

/-- SDW at an even address. -/
theorem storeOp_even {addr : Operand} (h : isOdd (addr.value s) = false) (x : RegNum) :
    storeOp x addr s =
      .next ((((addr.after s).afterRead x).setMem (s.mem.writeWord (addr.value s) (storeData x addr s))).setPc
        (s.pc + addr.len)) := by
  simp [storeOp, memWrite_even h, settle, npc]

theorem storeOp_odd {addr : Operand} (h : isOdd (addr.value s) = true) (x : RegNum) :
    storeOp x addr s = .fault (.misalignedData (addr.value s)) := by
  simp [storeOp, memWrite_odd h, settle]

/-- CALL at an even SP. -/
theorem callOp_even (h : isOdd (s.regValue regSP) = false) (target : Operand) :
    callOp target s =
      .next ((((target.after s).setMem (s.mem.writeWord (s.regValue regSP) (s.pc + target.len))).writeReg regSP
        (s.regValue regSP - slot)).setPc (target.value s)) := by
  have e : (target.after s).regValue regSP = s.regValue regSP := Operand.regValue_after (by decide) target
  simp [callOp, stackPush_even (s := target.after s) (e ▸ h), e, settle, npc]

theorem callOp_odd (h : isOdd (s.regValue regSP) = true) (target : Operand) :
    callOp target s = .fault (.misalignedData (s.regValue regSP)) := by
  have e : (target.after s).regValue regSP = s.regValue regSP := Operand.regValue_after (by decide) target
  simp [callOp, stackPush_odd (s := target.after s) (e ▸ h), e, settle]

/-- RET at an even SP. -/
theorem execRet_even (h : isOdd (s.regValue regSP) = false) :
    execRet s = .next ((s.writeReg regSP (pullAddr s)).setPc (s.mem.readWord (pullAddr s))) := by
  simp [execRet, stackPull_even h, settle]

theorem execRet_odd (h : isOdd (s.regValue regSP) = true) : execRet s = .fault (.misalignedData (pullAddr s)) := by
  simp [execRet, stackPull_odd h, settle]

/-- PUSH at an even SP. -/
theorem execPush_even (h : isOdd (s.regValue regSP) = false) (x : RegNum) :
    execPush x s =
      .next ((((s.afterRead x).setMem (s.mem.writeWord (s.regValue regSP) (s.regValue x))).writeReg regSP
        (s.regValue regSP - slot)).setPc (s.pc + 2#16)) := by
  have e : (s.afterRead x).regValue regSP = s.regValue regSP := State.regValue_afterRead s (by decide) x
  simp [execPush, stackPush_even (s := s.afterRead x) (e ▸ h), e, settle, npc]

theorem execPush_odd (h : isOdd (s.regValue regSP) = true) (x : RegNum) :
    execPush x s = .fault (.misalignedData (s.regValue regSP)) := by
  have e : (s.afterRead x).regValue regSP = s.regValue regSP := State.regValue_afterRead s (by decide) x
  simp [execPush, stackPush_odd (s := s.afterRead x) (e ▸ h), e, settle]

/-- PULL at an even SP, into another register than SP. -/
theorem execPull_even {x : RegNum} (hx : x ≠ regSP) (h : isOdd (s.regValue regSP) = false) :
    execPull x s =
      .next (((s.writeReg regSP (pullAddr s)).writeReg x (s.mem.readWord (pullAddr s))).setPc (s.pc + 2#16)) := by
  simp [execPull, hx, stackPull_even h, settle, npc]

theorem execPull_odd {x : RegNum} (hx : x ≠ regSP) (h : isOdd (s.regValue regSP) = true) :
    execPull x s = .fault (.misalignedData (pullAddr s)) := by
  simp [execPull, hx, stackPull_odd h, settle]

theorem execPull_sp (s : State) : execPull regSP s = .fault .pullToSP := by
  simp [execPull, settle]

/-! ### Memory through the families: nothing, or one word at an even address -/

/-- What may have happened to memory in one instruction. -/
def OneWordAtMost (m k : Memory) : Prop := k = m ∨ ∃ addr v : Word, isOdd addr = false ∧ k = m.writeWord addr v

theorem storeOp_mem {x : RegNum} {addr : Operand} (h : storeOp x addr s = .next t) : OneWordAtMost s.mem t.mem := by
  cases ho : isOdd (addr.value s) with
  | true => rw [storeOp_odd ho] at h; cases h
  | false => rw [storeOp_even ho] at h; cases h; exact .inr ⟨_, _, ho, rfl⟩

theorem callOp_mem {target : Operand} (h : callOp target s = .next t) : OneWordAtMost s.mem t.mem := by
  cases ho : isOdd (s.regValue regSP) with
  | true => rw [callOp_odd ho] at h; cases h
  | false => rw [callOp_even ho] at h; cases h; exact .inr ⟨_, _, ho, State.writeReg_mem _ _ _⟩

theorem execPush_mem {x : RegNum} (h : execPush x s = .next t) : OneWordAtMost s.mem t.mem := by
  cases ho : isOdd (s.regValue regSP) with
  | true => rw [execPush_odd ho] at h; cases h
  | false => rw [execPush_even ho] at h; cases h; exact .inr ⟨_, _, ho, State.writeReg_mem _ _ _⟩

theorem loadOp_mem {x : RegNum} {addr : Operand} (h : loadOp x addr s = .next t) : t.mem = s.mem := by
  cases ho : isOdd (addr.value s) with
  | true => rw [loadOp_odd ho] at h; cases h
  | false => rw [loadOp_even ho] at h; cases h; simp

theorem execRet_mem (h : execRet s = .next t) : t.mem = s.mem := by
  cases ho : isOdd (s.regValue regSP) with
  | true => rw [execRet_odd ho] at h; cases h
  | false => rw [execRet_even ho] at h; cases h; simp

theorem execPull_mem {x : RegNum} (h : execPull x s = .next t) : t.mem = s.mem := by
  by_cases hx : x = regSP
  · subst hx; rw [execPull_sp] at h; cases h
  · cases ho : isOdd (s.regValue regSP) with
    | true => rw [execPull_odd hx ho] at h; cases h
    | false => rw [execPull_even hx ho] at h; cases h; simp

/-! ### The step (60_exceptions.md R193) -/

/-- All that a step can do before an instruction runs. -/
theorem step_cases (s : State) :
    (s.iflags &&& s.imask ≠ 0#8 ∧ step s = .fault (.interruptEntry (s.iflags &&& s.imask))) ∨
      (s.iflags &&& s.imask = 0#8 ∧
        ((∃ f, fetchDecode s = .error f ∧ step s = .fault f) ∨
          (∃ i, fetchDecode s = .ok i ∧ step s = exec i s.sampled))) := by
  by_cases h : s.iflags &&& s.imask = 0#8
  · refine .inr ⟨h, ?_⟩
    have e : fetchDecode s.sampled = fetchDecode s := fetchDecode_congr rfl rfl
    cases hf : fetchDecode s with
    | error f => exact .inl ⟨f, rfl, by simp [step, interruptCheck_quiet h, e, hf]⟩
    | ok i => exact .inr ⟨i, rfl, by simp [step, interruptCheck_quiet h, e, hf]⟩
  · exact .inl ⟨h, by simp [step, interruptCheck_entry h]⟩

/-- A step that goes on ran the instruction at pc. -/
theorem step_next (h : step s = .next t) : ∃ i, fetchDecode s = .ok i ∧ exec i s.sampled = .next t := by
  rcases step_cases s with ⟨-, e⟩ | ⟨-, ⟨f, -, e⟩ | ⟨i, hi, e⟩⟩
  · rw [e] at h; cases h
  · rw [e] at h; cases h
  · exact ⟨i, hi, e ▸ h⟩

end Sys2Proof.Machine
end

