-- ==== Sys2Proof/Laws/PerInstr.lean ====
section
/-! SUPPORT. One family per instruction form: the words that the encoder gives are the words of exactly one
instruction, the length announced and no reserved class (30_encoding.md R83, R90, R96). -/

namespace Sys2Proof.Laws.EncodeWF

/-- The encoder's words are well formed, and they are as many as the form's row says. -/
def Statement (i : Instr) : Prop := wordsWellFormed (encode i) = true ∧ (encode i).length = i.row.words

/-- One word whose high byte announces no immediate and is not reserved. -/
theorem one_word {high : Byte} (x y : RegNum) (hi : high.getLsbD 0 = false)
    (hr : reservedClass (coreWord high 0 0) = none) : wordsWellFormed [coreWord high x y] = true := by
  rw [wordsWellFormed, announcesImmediate_coreWord, reservedClass_coreWord high x y, hi, hr]; rfl

/-- Two words whose high byte announces an immediate and is not reserved. -/
theorem two_words {high : Byte} (x y : RegNum) (imm : Word) (hi : high.getLsbD 0 = true)
    (hr : reservedClass (coreWord high 0 0) = none) : wordsWellFormed [coreWord high x y, imm] = true := by
  rw [wordsWellFormed, announcesImmediate_coreWord, reservedClass_coreWord high x y, hi, hr]; rfl

theorem movReg (x : RegNum) (y : RegNum) : Statement (.movReg x y) :=
  ⟨one_word _ _ (by decide) (by decide), rfl⟩

theorem movImm (x : RegNum) (imm : Word) : Statement (.movImm x imm) :=
  ⟨two_words _ _ _ (by decide) (by decide), rfl⟩

theorem addReg (x : RegNum) (y : RegNum) : Statement (.addReg x y) :=
  ⟨one_word _ _ (by decide) (by decide), rfl⟩

theorem addImm (x : RegNum) (imm : Word) : Statement (.addImm x imm) :=
  ⟨two_words _ _ _ (by decide) (by decide), rfl⟩

theorem subReg (x : RegNum) (y : RegNum) : Statement (.subReg x y) :=
  ⟨one_word _ _ (by decide) (by decide), rfl⟩

theorem subImm (x : RegNum) (imm : Word) : Statement (.subImm x imm) :=
  ⟨two_words _ _ _ (by decide) (by decide), rfl⟩

theorem andReg (x : RegNum) (y : RegNum) : Statement (.andReg x y) :=
  ⟨one_word _ _ (by decide) (by decide), rfl⟩

theorem andImm (x : RegNum) (imm : Word) : Statement (.andImm x imm) :=
  ⟨two_words _ _ _ (by decide) (by decide), rfl⟩

theorem orReg (x : RegNum) (y : RegNum) : Statement (.orReg x y) :=
  ⟨one_word _ _ (by decide) (by decide), rfl⟩

theorem orImm (x : RegNum) (imm : Word) : Statement (.orImm x imm) :=
  ⟨two_words _ _ _ (by decide) (by decide), rfl⟩

theorem xorReg (x : RegNum) (y : RegNum) : Statement (.xorReg x y) :=
  ⟨one_word _ _ (by decide) (by decide), rfl⟩

theorem xorImm (x : RegNum) (imm : Word) : Statement (.xorImm x imm) :=
  ⟨two_words _ _ _ (by decide) (by decide), rfl⟩

theorem notReg (x : RegNum) (y : RegNum) : Statement (.notReg x y) :=
  ⟨one_word _ _ (by decide) (by decide), rfl⟩

theorem notImm (x : RegNum) (imm : Word) : Statement (.notImm x imm) :=
  ⟨two_words _ _ _ (by decide) (by decide), rfl⟩

theorem lsrReg (x : RegNum) : Statement (.lsrReg x) :=
  ⟨one_word _ _ (by decide) (by decide), rfl⟩

theorem lsrImm (x : RegNum) : Statement (.lsrImm x) :=
  ⟨two_words _ _ _ (by decide) (by decide), rfl⟩

theorem lslReg (x : RegNum) : Statement (.lslReg x) :=
  ⟨one_word _ _ (by decide) (by decide), rfl⟩

theorem lslImm (x : RegNum) : Statement (.lslImm x) :=
  ⟨two_words _ _ _ (by decide) (by decide), rfl⟩

theorem ldwReg (x : RegNum) (y : RegNum) : Statement (.ldwReg x y) :=
  ⟨one_word _ _ (by decide) (by decide), rfl⟩

theorem ldwImm (x : RegNum) (imm : Word) : Statement (.ldwImm x imm) :=
  ⟨two_words _ _ _ (by decide) (by decide), rfl⟩

theorem sdwReg (x : RegNum) (y : RegNum) : Statement (.sdwReg x y) :=
  ⟨one_word _ _ (by decide) (by decide), rfl⟩

theorem sdwImm (x : RegNum) (imm : Word) : Statement (.sdwImm x imm) :=
  ⟨two_words _ _ _ (by decide) (by decide), rfl⟩

theorem jmpReg (x : RegNum) : Statement (.jmpReg x) :=
  ⟨one_word _ _ (by decide) (by decide), rfl⟩

theorem jmpImm (imm : Word) : Statement (.jmpImm imm) :=
  ⟨two_words _ _ _ (by decide) (by decide), rfl⟩

theorem breReg (x : RegNum) : Statement (.breReg x) :=
  ⟨one_word _ _ (by decide) (by decide), rfl⟩

theorem breImm (imm : Word) : Statement (.breImm imm) :=
  ⟨two_words _ _ _ (by decide) (by decide), rfl⟩

theorem bneReg (x : RegNum) : Statement (.bneReg x) :=
  ⟨one_word _ _ (by decide) (by decide), rfl⟩

theorem bneImm (imm : Word) : Statement (.bneImm imm) :=
  ⟨two_words _ _ _ (by decide) (by decide), rfl⟩

theorem bgtReg (x : RegNum) : Statement (.bgtReg x) :=
  ⟨one_word _ _ (by decide) (by decide), rfl⟩

theorem bgtImm (imm : Word) : Statement (.bgtImm imm) :=
  ⟨two_words _ _ _ (by decide) (by decide), rfl⟩

theorem blsReg (x : RegNum) : Statement (.blsReg x) :=
  ⟨one_word _ _ (by decide) (by decide), rfl⟩

theorem blsImm (imm : Word) : Statement (.blsImm imm) :=
  ⟨two_words _ _ _ (by decide) (by decide), rfl⟩

theorem callReg (x : RegNum) : Statement (.callReg x) :=
  ⟨one_word _ _ (by decide) (by decide), rfl⟩

theorem callImm (imm : Word) : Statement (.callImm imm) :=
  ⟨two_words _ _ _ (by decide) (by decide), rfl⟩

theorem ret : Statement (.ret) :=
  ⟨one_word _ _ (by decide) (by decide), rfl⟩

theorem push (x : RegNum) : Statement (.push x) :=
  ⟨one_word _ _ (by decide) (by decide), rfl⟩

theorem pull (x : RegNum) : Statement (.pull x) :=
  ⟨one_word _ _ (by decide) (by decide), rfl⟩

theorem int : Statement (.int) :=
  ⟨one_word _ _ (by decide) (by decide), rfl⟩

end Sys2Proof.Laws.EncodeWF
end

