-- ==== Sys2Proof/Tests/Slice0.lean ====
section
/-! SUPPORT. The model's own tests. Expected values come from spec/95_test_vectors.md or are worked out by hand from the
rule named; `witness_<Name>` shows that the hypotheses of Obligations.<Name> can be met together. -/

namespace Sys2Proof.Tests

open Sys2Proof.Machine Sys2Proof.Safety

/-! ### Small states -/

/-- The state at reset with pc at `pc`, some registers written and some words stored. -/
def st (pc : Word) (regs : List (RegNum × Word)) (words : List (Word × Word)) : State :=
  words.foldl (fun s w => s.setMem (s.mem.writeWord w.1 w.2))
    (regs.foldl (fun s r => s.writeReg r.1 r.2) (State.reset.setPc pc))

/-- Some registers of the state after an instruction, and its pc. -/
def seen (o : Host.Outcome State Fault Refusal) (regs : List RegNum) : Option (List Word × Word) :=
  (nextState? o).map fun t => (regs.map t.regValue, t.pc)

/-- Some bytes of memory after an instruction. -/
def bytesSeen (o : Host.Outcome State Fault Refusal) (addrs : List Nat) : Option (List Byte) :=
  (nextState? o).map fun t => addrs.map (Memory.read t.mem)

/-- FS and FZ after an instruction. -/
def fsfz (o : Host.Outcome State Fault Refusal) : Option (Bool × Bool) :=
  (nextState? o).map fun t => (t.flags.fs, t.flags.fz)

/-- All four flags after an instruction, in the order FS, FZ, FO, FC of 95_test_vectors.md section 3. -/
def allFlags (o : Host.Outcome State Fault Refusal) : Option (Bool × Bool × Bool × Bool) :=
  (nextState? o).map fun t => (t.flags.fs, t.flags.fz, t.flags.fo, t.flags.fc)

theorem exists_next {o : Host.Outcome State Fault Refusal} (h : (nextState? o).isSome = true) : ∃ t, o = .next t := by
  cases o with
  | next t => exact ⟨t, rfl⟩
  | fault f => simp [nextState?] at h
  | refused r => simp [nextState?] at h

theorem fault_of_seen {o : Host.Outcome State Fault Refusal} {f : Fault} (h : faultOf? o = some f) : o = .fault f := by
  cases o with
  | next t => simp [faultOf?] at h
  | fault g => simpa [faultOf?] using h
  | refused r => simp [faultOf?] at h

theorem refused_of_seen {o : Host.Outcome State Fault Refusal} {r : Refusal} (h : refusalOf? o = some r) :
    o = .refused r := by
  cases o with
  | next t => simp [refusalOf?] at h
  | fault g => simp [refusalOf?] at h
  | refused q => simpa [refusalOf?] using h

/-! ### WellFormed: one ill-formed term for each check (R83, R90) -/

theorem test_rv1_refused : wordsWellFormed [0xFFFF#16, 0x0000#16] = false := by decide
theorem test_rv2_refused : wordsWellFormed [0x3034#16] = false := by decide
theorem test_rv3_refused : wordsWellFormed [0x6000#16] = false := by decide
theorem test_rv4_refused : wordsWellFormed [0x6F00#16, 0x0000#16] = false := by decide
theorem test_rv5_refused : wordsWellFormed [0x8130#16, 0x0000#16] = false := by decide
theorem test_rv6_refused : wordsWellFormed [0xA140#16, 0x0000#16] = false := by decide
theorem test_rv7_refused : wordsWellFormed [0xC100#16, 0x0000#16] = false := by decide
theorem test_no_words_refused : wordsWellFormed [] = false := by decide
theorem test_missing_immediate_refused : wordsWellFormed [0x0130#16] = false := by decide
theorem test_extra_word_refused : wordsWellFormed [0x0034#16, 0x0000#16] = false := by decide
theorem test_three_words_refused : wordsWellFormed [0x0130#16, 0x0000#16, 0x0000#16] = false := by decide
theorem test_well_formed_words : wordsWellFormed [0x01F0#16, 0xABCD#16] = true ∧ wordsWellFormed [0x8030#16] = true := by
  decide

/-! ### Decoding: the words of 95_test_vectors.md section 2, one for each of the 38 forms -/

theorem test_decode_alu_register_forms :
    [0x1056, 0x1267, 0x1478, 0x1689, 0x189A, 0x1AAB, 0x1CC0, 0x1ED0].map (decodeTableWord 16) =
      [some (.addReg 5 6), some (.subReg 6 7), some (.andReg 7 8), some (.orReg 8 9), some (.xorReg 9 10),
        some (.notReg 10 11), some (.lsrReg 12), some (.lslReg 13)] := by decide

theorem test_decode_alu_immediate_forms :
    [0x00101150, 0x00201360, 0x00301570, 0x00401780, 0x00501990, 0x00601BA0, 0x55551D30, 0x55551F30].map
      (decodeTableWord 32) =
      [some (.addImm 5 0x10), some (.subImm 6 0x20), some (.andImm 7 0x30), some (.orImm 8 0x40), some (.xorImm 9 0x50),
        some (.notImm 10 0x60), some (.lsrImm 3), some (.lslImm 3)] := by decide

theorem test_decode_data_movement :
    [0x0034, 0x2034, 0x4034].map (decodeTableWord 16) = [some (.movReg 3 4), some (.ldwReg 3 4), some (.sdwReg 3 4)] ∧
    [0xABCD01F0, 0x01002130, 0x01004130].map (decodeTableWord 32) =
      [some (.movImm 15 0xABCD), some (.ldwImm 3 0x0100), some (.sdwImm 3 0x0100)] := by decide

theorem test_decode_control_flow :
    [0x6290, 0x6490, 0x6690, 0x6890, 0x6A90, 0x6C90, 0x6E00].map (decodeTableWord 16) =
      [some (.jmpReg 9), some (.breReg 9), some (.bneReg 9), some (.bgtReg 9), some (.blsReg 9), some (.callReg 9),
        some .ret] ∧
    [0x02006300, 0x02006500, 0x02006700, 0x02006900, 0x02006B00, 0x02006D00].map (decodeTableWord 32) =
      [some (.jmpImm 0x0200), some (.breImm 0x0200), some (.bneImm 0x0200), some (.bgtImm 0x0200),
        some (.blsImm 0x0200), some (.callImm 0x0200)] := by decide

theorem test_decode_stack_and_system :
    [0x8030, 0xA040, 0xC000].map (decodeTableWord 16) = [some (.push 3), some (.pull 4), some .int] := by decide

/-- The ignored-field vectors of 95_test_vectors.md section 2. -/
theorem test_decode_ignores_unused_fields :
    [0x0A34, 0x6379, 0xC655, 0x1D39, 0x803F].map (decodeTableWord 32) =
      [some (.movReg 3 4), some (.jmpImm 0), some .int, some (.lsrImm 3), some (.push 3)] := by decide

/-- The reserved words of 95_test_vectors.md section 2, each under its class. -/
theorem test_decode_refuses_reserved_by_name :
    [0xE000#16, 0xFFFF#16, 0x3034#16, 0x7300#16, 0x9030#16, 0xB040#16, 0xD000#16].map (decode · 0) =
      [.reserved .rv1, .reserved .rv1, .reserved .rv2, .reserved .rv2, .reserved .rv2, .reserved .rv2, .reserved .rv2] ∧
    [0x6000#16, 0x6100#16, 0x61FF#16, 0x6F00#16, 0x8130#16, 0xA140#16, 0xC100#16].map (decode · 0) =
      [.reserved .rv3, .reserved .rv3, .reserved .rv3, .reserved .rv4, .reserved .rv5, .reserved .rv6,
        .reserved .rv7] := by decide

/-- One word of each family, bit by bit from the fields of R81. -/
theorem test_decode_bit_by_bit :
    decode (0b000#3 ++ 0b1#1 ++ 0b001#3 ++ 0b0#1 ++ 0b0110#4 ++ 0b0111#4) 0 = .instr (.subReg 6 7) ∧
    decode (0b001#3 ++ 0b0#1 ++ 0b000#3 ++ 0b1#1 ++ 0b0011#4 ++ 0b0000#4) 0x0100 = .instr (.ldwImm 3 0x0100) ∧
    decode (0b011#3 ++ 0b0#1 ++ 0b100#3 ++ 0b0#1 ++ 0b1001#4 ++ 0b0000#4) 0 = .instr (.bgtReg 9) ∧
    decode (0b101#3 ++ 0b0#1 ++ 0b000#3 ++ 0b0#1 ++ 0b0100#4 ++ 0b0000#4) 0 = .instr (.pull 4) ∧
    decode (0b110#3 ++ 0b0#1 ++ 0b000#3 ++ 0b0#1 ++ 0b0000#4 ++ 0b0000#4) 0 = .instr .int := by decide

theorem test_truncated_bytes : decodeBytes [0x30#8, 0x01#8, 0x34#8] = .truncated := by decide

/-- The encoder gives the bytes of 95_test_vectors.md section 2. -/
theorem test_encode_bytes :
    encodeBytes (.movImm 15 0xABCD) = [0xF0#8, 0x01#8, 0xCD#8, 0xAB#8] ∧ encodeBytes (.xorReg 9 10) = [0x9A#8, 0x18#8] ∧
    encodeBytes (.callImm 0x0200) = [0x00#8, 0x6D#8, 0x00#8, 0x02#8] := by decide

/-! ### ALU: 95_test_vectors.md section 3 -/

theorem test_add_signed_overflow :
    seen (exec (.addReg 3 4) (st 0x10 [(3, 0x7FFF), (4, 1)] [])) [3, 4] = some ([0x8000, 1], 0x12) ∧
    allFlags (exec (.addReg 3 4) (st 0x10 [(3, 0x7FFF), (4, 1)] [])) = some (true, false, true, false) := by decide

theorem test_add_immediate_both_overflows :
    seen (exec (.addImm 3 0x8000) (st 0x10 [(3, 0x8000)] [])) [3] = some ([0], 0x14) ∧
    allFlags (exec (.addImm 3 0x8000) (st 0x10 [(3, 0x8000)] [])) = some (false, true, true, true) := by decide

theorem test_sub_overflow_and_borrow :
    seen (exec (.subReg 3 4) (st 0x10 [(3, 0x7FFF), (4, 0xFFFF)] [])) [3, 4] = some ([0x8000, 0xFFFF], 0x12) ∧
    allFlags (exec (.subReg 3 4) (st 0x10 [(3, 0x7FFF), (4, 0xFFFF)] [])) = some (true, false, true, true) := by decide

theorem test_sub_immediate_less :
    seen (exec (.subImm 3 5) (st 0x10 [(3, 3)] [])) [3] = some ([0xFFFE], 0x14) ∧
    allFlags (exec (.subImm 3 5) (st 0x10 [(3, 3)] [])) = some (true, false, false, true) := by decide

theorem test_and : seen (exec (.andReg 3 4) (st 0x10 [(3, 0xF0F0), (4, 0x0FF0)] [])) [3] = some ([0x00F0], 0x12) ∧
    fsfz (exec (.andReg 3 4) (st 0x10 [(3, 0xF0F0), (4, 0x0FF0)] [])) = some (false, false) := by decide

theorem test_and_immediate_zero : seen (exec (.andImm 3 0x5555) (st 0x10 [(3, 0xAAAA)] [])) [3] = some ([0], 0x14) ∧
    fsfz (exec (.andImm 3 0x5555) (st 0x10 [(3, 0xAAAA)] [])) = some (false, true) := by decide

theorem test_or : seen (exec (.orReg 3 4) (st 0x10 [(3, 0xF000), (4, 0x000F)] [])) [3] = some ([0xF00F], 0x12) := by
  decide

theorem test_or_immediate : seen (exec (.orImm 3 0x000F) (st 0x10 [(3, 0xF000)] [])) [3] = some ([0xF00F], 0x14) ∧
    fsfz (exec (.orImm 3 0x000F) (st 0x10 [(3, 0xF000)] [])) = some (true, false) := by decide

theorem test_xor_same_register : seen (exec (.xorReg 5 5) (st 0x10 [(5, 0x1234)] [])) [5] = some ([0], 0x12) ∧
    fsfz (exec (.xorReg 5 5) (st 0x10 [(5, 0x1234)] [])) = some (false, true) := by decide

theorem test_xor_immediate : seen (exec (.xorImm 3 0x5555) (st 0x10 [(3, 0xAAAA)] [])) [3] = some ([0xFFFF], 0x14) := by
  decide

theorem test_not_reads_source_two : seen (exec (.notReg 3 4) (st 0x10 [(3, 0x1234), (4, 0x00FF)] [])) [3] =
    some ([0xFF00], 0x12) := by decide

theorem test_not_immediate : seen (exec (.notImm 3 0xFFFF) (st 0x10 [(3, 0x1234)] [])) [3] = some ([0], 0x14) ∧
    fsfz (exec (.notImm 3 0xFFFF) (st 0x10 [(3, 0x1234)] [])) = some (false, true) := by decide

theorem test_lsr : seen (exec (.lsrReg 3) (st 0x10 [(3, 0x8001)] [])) [3] = some ([0x4000], 0x12) := by decide

theorem test_lsr_four_bytes : seen (exec (.lsrImm 3) (st 0x10 [(3, 1)] [])) [3] = some ([0], 0x14) ∧
    fsfz (exec (.lsrImm 3) (st 0x10 [(3, 1)] [])) = some (false, true) := by decide

theorem test_lsl : seen (exec (.lslReg 3) (st 0x10 [(3, 0x8001)] [])) [3] = some ([2], 0x12) := by decide

theorem test_lsl_four_bytes : seen (exec (.lslImm 3) (st 0x10 [(3, 0x4000)] [])) [3] = some ([0x8000], 0x14) ∧
    fsfz (exec (.lslImm 3) (st 0x10 [(3, 0x4000)] [])) = some (true, false) := by decide

/-! ### Data movement: section 4 -/

theorem test_mov_keeps_flags : seen (exec (.movReg 3 4) (st 0x10 [(3, 0x5555)] [])) [3] = some ([0], 0x12) ∧
    allFlags (exec (.movReg 3 4) ((st 0x10 [] []).setFlags ⟨true, true, false, false⟩)) =
      some (true, false, true, false) := by decide

/-- Section 4: `MOV x3, x0` with IFLAGS = 0x81. -/
theorem test_mov_reads_interrupt_flags :
    ((nextState? (exec (.movReg 3 0) (State.launch (Vector.replicate 15 0) ⟨false, false, false, false⟩ [] [0x81]))).map
      fun t => hiByte (t.regValue 3)) = some 0x81 := by
  rw [show exec (.movReg 3 0) (State.launch (Vector.replicate 15 0) ⟨false, false, false, false⟩ [] [0x81]) =
    .next (((State.sampled _).writeReg 3 (State.regValue _ 0)).setPc _) from rfl]
  exact congrArg some (hiByte_wordOfBytes (Config.x0LowRead 0) 0x81#8)

theorem test_mov_immediate_to_mask :
    ((nextState? (exec (.movImm 0 0xAB0F) (st 0x10 [] []))).map fun t => (t.imask, t.pc)) = some (0x0F, 0x14) := by decide

theorem test_ldw_over_its_address :
    seen (exec (.ldwReg 4 4) (st 0x10 [(4, 0x0100)] [(0x0100, 0xBEEF)])) [4] = some ([0xBEEF], 0x12) := by decide

theorem test_ldw_top_of_memory :
    seen (exec (.ldwImm 3 0xFFFE) (st 0x10 [] [(0xFFFE, 0x0201)])) [3] = some ([0x0201], 0x14) := by decide

theorem test_sdw_stores_little_endian :
    bytesSeen (exec (.sdwReg 3 4) (st 0x10 [(3, 0x1234), (4, 0x0200)] [])) [0x01FF, 0x0200, 0x0201, 0x0202] =
      some [0, 0x34, 0x12, 0] := by decide

theorem test_sdw_immediate :
    bytesSeen (exec (.sdwImm 3 0x0200) (st 0x10 [(3, 0xBEEF)] [])) [0x0200, 0x0201] = some [0xEF, 0xBE] := by decide

theorem test_ldw_odd_stops : faultOf? (exec (.ldwImm 3 0xFFFF) (st 0x10 [] [])) = some (.misalignedData 0xFFFF) := by
  decide

/-! ### Control flow: section 5, at pc = 0x0020 with x9 = 0x0400 -/

theorem test_jmp : seen (exec (.jmpReg 9) (st 0x20 [(9, 0x0400)] [])) [9] = some ([0x0400], 0x0400) ∧
    seen (exec (.jmpImm 0x0200) (st 0x20 [] [])) [] = some ([], 0x0200) := by decide

theorem test_bre : seen (exec (.breImm 0x0200) ((st 0x20 [] []).setFlags ⟨false, false, false, true⟩)) [] =
      some ([], 0x0200) ∧
    seen (exec (.breReg 9) ((st 0x20 [(9, 0x0400)] []).setFlags ⟨true, false, false, false⟩)) [] = some ([], 0x22) := by
  decide

theorem test_bne : seen (exec (.bneImm 0x0200) ((st 0x20 [] []).setFlags ⟨false, false, false, true⟩)) [] =
      some ([], 0x24) ∧
    seen (exec (.bneReg 9) ((st 0x20 [(9, 0x0400)] []).setFlags ⟨true, false, false, false⟩)) [] = some ([], 0x0400) := by
  decide

theorem test_bgt : seen (exec (.bgtImm 0x0200) ((st 0x20 [] []).setFlags ⟨true, true, true, false⟩)) [] =
      some ([], 0x24) ∧
    seen (exec (.bgtReg 9) ((st 0x20 [(9, 0x0400)] []).setFlags ⟨false, true, true, false⟩)) [] = some ([], 0x0400) := by
  decide

theorem test_bls : seen (exec (.blsImm 0x0200) ((st 0x20 [] []).setFlags ⟨false, true, true, false⟩)) [] =
      some ([], 0x24) ∧
    seen (exec (.blsReg 9) ((st 0x20 [(9, 0x0400)] []).setFlags ⟨true, false, false, true⟩)) [] = some ([], 0x0400) := by
  decide

theorem test_call_jumps_to_old_sp : seen (exec (.callReg 1) (st 0x10 [(1, 0x8000)] [])) [1] = some ([0x7FFE], 0x8000) ∧
    bytesSeen (exec (.callReg 1) (st 0x10 [(1, 0x8000)] [])) [0x8000, 0x8001] = some [0x12, 0] := by decide

theorem test_call_return_address_wraps :
    seen (exec (.callImm 0x0100) (st 0xFFFC [(1, 0x8000)] [(0x8000, 0x5555)])) [1] = some ([0x7FFE], 0x0100) ∧
    bytesSeen (exec (.callImm 0x0100) (st 0xFFFC [(1, 0x8000)] [(0x8000, 0x5555)])) [0x8000, 0x8001] = some [0, 0] := by
  decide

theorem test_ret : seen (exec .ret (st 0x10 [(1, 0x7FFE)] [(0x8000, 0x0014)])) [1] = some ([0x8000], 0x0014) := by decide

/-! ### Stack: section 6 -/

theorem test_push_sp_pushes_old_value :
    seen (exec (.push 1) (st 0x10 [(1, 0x8000)] [])) [1] = some ([0x7FFE], 0x12) ∧
    bytesSeen (exec (.push 1) (st 0x10 [(1, 0x8000)] [])) [0x8000, 0x8001] = some [0x00, 0x80] := by decide

theorem test_push_wraps :
    seen (exec (.push 3) (st 0x10 [(1, 0), (3, 0x00FF)] [])) [1] = some ([0xFFFE], 0x12) ∧
    bytesSeen (exec (.push 3) (st 0x10 [(1, 0), (3, 0x00FF)] [])) [0, 1] = some [0xFF, 0] := by decide

theorem test_pull_wraps :
    seen (exec (.pull 4) (st 0x10 [(1, 0xFFFE)] [(0, 0x4321)])) [4, 1] = some ([0x4321, 0], 0x12) := by decide

theorem test_pull_sp_stops_before_misalignment :
    faultOf? (exec (.pull 1) (st 0x10 [(1, 0x7FFF)] [])) = some .pullToSP ∧
    faultOf? (exec (.pull 3) (st 0x10 [(1, 0x7FFF)] [])) = some (.misalignedData 0x8001) := by decide

/-! ### System, interrupts and the step: sections 5, 7 and 8 -/

theorem test_int_stops : refusalOf? (step (st 0x20 [] [(0x20, 0xC000)])) = some .softwareInterrupt := by decide

theorem test_step_wraps_at_the_top :
    seen (step (st 0xFFFE [] [(0xFFFE, 0x0130), (0x0000, 0x1234)])) [3] = some ([0x1234], 0x0002) := by decide

theorem test_interrupt_entry_carries_enabled_bits :
    faultOf? (step ({ st 0 [(0, 0x0003)] [] with irqInputs := [0x06] })) = some (.interruptEntry 0x02) := by decide

theorem test_disabled_flag_does_not_stop :
    seen (step ({ st 0 [(0, 0x0002)] [(0, 0x0033)] with irqInputs := [0x01] })) [3] = some ([0], 2) := by decide

theorem test_reserved_word_stops :
    faultOf? (step (st 0 [] [(0, 0x7300)])) = some (.reservedInstruction 0x7300) := by decide

theorem test_odd_pc_stops : faultOf? (step (st 0x0101 [] [])) = some (.misalignedFetch 0x0101) := by decide

theorem test_fetch_word_runs_first :
    seen (step (State.reset.withFetchWord 32 0xABCD01F0)) [15] = some ([0xABCD], 4) := by decide

/-! ### Witnesses: the hypotheses of each statement can be met -/

theorem witness_DecodedWordSelectsItsRow : ∃ core imm i, decode core imm = .instr i :=
  ⟨0xA040#16, 0, .pull 4, by decide⟩

theorem witness_FieldIAloneDecidesTheLength :
    decode 0x0034#16 0xFFFF#16 = .instr (.movReg 3 4) ∧ decode 0x01F0#16 0xABCD#16 = .instr (.movImm 15 0xABCD) := by decide

theorem witness_GeneralRegistersReadBackWrites : (1#4 : RegNum) ≠ regINT ∧ (15#4 : RegNum) ≠ regINT := by decide

theorem witness_ReleasedCoreStartsAtAddressZero :
    decode (wordAt (State.launch (Vector.replicate 15 7) ⟨true, true, true, true⟩ [(0, 0x33#8)] [0xFF#8]) 0x0000#16)
      (wordAt (State.launch (Vector.replicate 15 7) ⟨true, true, true, true⟩ [(0, 0x33#8)] [0xFF#8]) 0x0002#16) =
      .instr (.movReg 3 3) := by decide

theorem witness_WordWrittenIsReadBack : (0xFFFE#16).getLsbD 0 = false ∧ (0xFFFF#16).getLsbD 0 = true := by decide

theorem witness_CanonicalMemoriesWithEqualBytesAreEqual :
    Memory.wf [(0, 1#8), (65535, 2#8)] ∧
      ∀ a, Memory.read [(0, 1#8), (65535, 2#8)] a = Memory.read [(0, 1#8), (65535, 2#8)] a :=
  ⟨by decide, fun _ => rfl⟩

theorem witness_AddFlagsAreTheCarriesOfTheMsb :
    (∃ t, exec (.addReg 3 4) (st 0 [(3, 0x7FFF), (4, 1)] []) = .next t) ∧
    (∃ t, exec (.addImm 0 0xFFFF) (st 0 [] []) = .next t) := ⟨⟨_, rfl⟩, ⟨_, rfl⟩⟩

theorem witness_ShiftsMoveByOneBit :
    (0x4000#16).toNat = ((st 0 [(3, 0x8001)] []).regValue 3).toNat / 2 ∧
    (0x0002#16).toNat = 2 * ((st 0 [(3, 0x8001)] []).regValue 3).toNat % 65536 := by decide

theorem witness_LdwLoadsTheAddressedWord :
    ((st 0 [(4, 0xFFFE)] []).regValue 4).getLsbD 0 = false ∧ (0xFFFE#16).getLsbD 0 = false := by decide

theorem witness_SdwStoresAtTheAddressedWord :
    ((st 0 [(4, 0xFFFE)] []).regValue 4).getLsbD 0 = false ∧ (0x0000#16).getLsbD 0 = false := by decide

theorem witness_SubOrdersOperandsUnlessItOverflows :
    (∃ t, exec (.subReg 3 4) (st 0 [(3, 0x8000), (4, 1)] []) = .next t) ∧
    (∃ t, exec (.subImm 3 5) (st 0 [(3, 3)] []) = .next t) ∧
    ¬(-32768 ≤ (0x8000#16).toInt - (0x0001#16).toInt ∧ (0x8000#16).toInt - (0x0001#16).toInt ≤ 32767) ∧
    (-32768 ≤ (0x0003#16).toInt - (0x0005#16).toInt ∧ (0x0003#16).toInt - (0x0005#16).toInt ≤ 32767) :=
  ⟨⟨_, rfl⟩, ⟨_, rfl⟩, by decide, by decide⟩

theorem witness_CallPushesReturnAddressAndJumps : ((st 0 [(1, 0x0000)] []).regValue regSP).getLsbD 0 = false := by decide

theorem witness_RetPullsThePc : ((st 0 [(1, 0xFFFE)] []).regValue regSP).getLsbD 0 = false := by decide

theorem witness_RetUndoesCall :
    (∃ t, exec (.callReg 9) (st 0x10 [(1, 0x8000), (9, 0x0400)] []) = .next t) ∧
    (∃ t, exec (.callImm 0x0100) (st 0xFFFC [(1, 0x0000)] []) = .next t) :=
  ⟨exists_next (by decide), exists_next (by decide)⟩

theorem witness_PushStoresAtSpAndMovesIt : ((st 0 [(1, 0x0000)] []).regValue regSP).getLsbD 0 = false := by decide

theorem witness_PullLoadsAboveSpAndMovesIt :
    ((0#4 : RegNum) ≠ regSP ∧ ((st 0 [(1, 0xFFFE)] []).regValue regSP).getLsbD 0 = false) ∧ (1#4 : RegNum) = regSP := by
  decide

theorem witness_PullAfterPushReturnsThePushedWord :
    (0#4 : RegNum) ≠ regSP ∧ (4#4 : RegNum) ≠ regSP ∧ ∃ t, exec (.push 1) (st 0 [(1, 0x8000)] []) = .next t :=
  ⟨by decide, by decide, exists_next (by decide)⟩

theorem witness_OddDataAddressStops :
    ((st 0 [(4, 0xFFFF)] []).regValue 4).getLsbD 0 = true ∧ (0x0001#16).getLsbD 0 = true ∧
    ((st 0 [(1, 0xFFFF)] []).regValue regSP).getLsbD 0 = true ∧ (2#4 : RegNum) ≠ regSP := by decide

/-- Interrupts masked: nothing enabled, whatever the environment presents. -/
theorem quiet_of_zero_mask {s : State} (h : s.imask = 0#8) : s.iflags &&& s.imask = 0x00#8 := by simp [h]

theorem witness_IntEndsTheRun :
    (st 0 [] [(0, 0xC000)]).iflags &&& (st 0 [] [(0, 0xC000)]).imask = 0x00#8 ∧
    (st 0 [] [(0, 0xC000)]).pc.getLsbD 0 = false ∧
    ∀ imm, decode (wordAt (st 0 [] [(0, 0xC000)]) (st 0 [] [(0, 0xC000)]).pc) imm = .instr .int :=
  ⟨quiet_of_zero_mask (by decide), by decide, fun imm =>
    (decode_imm_irrelevant _ imm 0 (by decide)).trans (by decide)⟩

theorem witness_StepRunsTheDecodedInstruction :
    (st 0xFFFE [] [(0xFFFE, 0x0130), (0, 0x1234)]).iflags &&& (st 0xFFFE [] [(0xFFFE, 0x0130), (0, 0x1234)]).imask = 0x00#8 ∧
    (st 0xFFFE [] [(0xFFFE, 0x0130), (0, 0x1234)]).pc.getLsbD 0 = false ∧
    decodeBytes ([0xFFFE, 0xFFFF, 0, 1].map (Memory.read (st 0xFFFE [] [(0xFFFE, 0x0130), (0, 0x1234)]).mem)) =
      .ok (.movImm 3 0x1234) [] :=
  ⟨quiet_of_zero_mask (by decide), by decide, by decide⟩

theorem witness_EnabledInterruptStopsBeforeFetch :
    ({ st 1 [(0, 0x0080)] [] with irqInputs := [0x81#8] } : State).iflags &&&
      ({ st 1 [(0, 0x0080)] [] with irqInputs := [0x81#8] } : State).imask ≠ 0x00#8 := by decide

theorem witness_ZeroMaskNeverEntersAnInterrupt : (st 0 [(0, 0xFF00)] []).imask = 0x00#8 := by decide

theorem witness_OddPcStopsTheFetch :
    (st 0xFFFF [] []).iflags &&& (st 0xFFFF [] []).imask = 0x00#8 ∧ (st 0xFFFF [] []).pc.getLsbD 0 = true :=
  ⟨quiet_of_zero_mask (by decide), by decide⟩

theorem witness_ReservedWordStopsTheStep :
    (st 0 [] [(0, 0xE000)]).iflags &&& (st 0 [] [(0, 0xE000)]).imask = 0x00#8 ∧
    (st 0 [] [(0, 0xE000)]).pc.getLsbD 0 = false ∧
    reservedClass (wordAt (st 0 [] [(0, 0xE000)]) (st 0 [] [(0, 0xE000)]).pc) = some .rv1 :=
  ⟨quiet_of_zero_mask (by decide), by decide, by decide⟩

theorem witness_JumpToOddTargetStopsAtTheNextFetch : (0x0101#16).getLsbD 0 = true ∧ (st 0 [] []).imask = 0x00#8 := by
  decide

theorem witness_EveryStopOfAStepIsListed :
    step ({ st 0 [(0, 0x0003)] [] with irqInputs := [0x06] }) = .fault (.interruptEntry 0x02) ∧
    step (st 0x0101 [] []) = .fault (.misalignedFetch 0x0101) ∧
    step (st 0 [] [(0, 0x6F00)]) = .fault (.reservedInstruction 0x6F00) ∧
    step (st 0 [(1, 0x7FFF)] [(0, 0x6E00)]) = .fault (.misalignedData 0x8001) ∧
    accessAddress (st 0 [(1, 0x7FFF)] [(0, 0x6E00)]).sampled .ret = some 0x8001 ∧
    step (st 0 [] [(0, 0xA010)]) = .fault .pullToSP ∧
    step (st 0 [] [(0, 0xC655)]) = .refused .softwareInterrupt :=
  ⟨fault_of_seen (by decide), fault_of_seen (by decide), fault_of_seen (by decide), fault_of_seen (by decide), by decide,
    fault_of_seen (by decide), refused_of_seen (by decide)⟩

theorem witness_StoredWordIsFetchedByTheNextStep :
    (st 4 [(3, 0xC000)] []).imask = 0x00#8 ∧ (st 4 [(3, 0xC000)] []).pc.getLsbD 0 = false ∧
    ((st 4 [(3, 0xC000)] []).regValue 3).getLsbD 8 = false ∧
    ∀ imm, decode ((st 4 [(3, 0xC000)] []).regValue 3) imm = .instr .int :=
  ⟨by decide, by decide, by decide, fun imm => (decode_imm_irrelevant _ imm 0 (by decide)).trans (by decide)⟩

theorem witness_StepKeepsMemoryCanonical :
    Memory.wf (st 0 [(3, 0x1200)] [(0, 0x4130), (2, 0x0200)]).mem ∧
    ∃ t, step (st 0 [(3, 0x1200)] [(0, 0x4130), (2, 0x0200)]) = .next t :=
  ⟨by decide, exists_next (by decide)⟩

theorem witness_StepKeepsZeroAndSignExclusive :
    ¬((st 0 [] [(0, 0x1855)]).flags.fz = true ∧ (st 0 [] [(0, 0x1855)]).flags.fs = true) ∧
    ∃ t, step (st 0 [] [(0, 0x1855)]) = .next t := ⟨by decide, exists_next (by decide)⟩

theorem witness_OnlyAluInstructionsWriteFlags :
    isAlu (.pull 3) = false ∧ ∃ t, exec (.pull 3) (st 0 [(1, 0x7FFE)] []) = .next t :=
  ⟨rfl, exists_next (by decide)⟩

theorem witness_OnlyDestinationsAndTheStackPointerAreWritten :
    (∃ t, exec (.ldwImm 3 0x0100) (st 0 [] []) = .next t) ∧ destination (.ldwImm 3 0x0100) ≠ some 1 ∧
      movesSP (.ldwImm 3 0x0100) = false ∧ destination (.ldwImm 3 0x0100) ≠ some regINT :=
  ⟨exists_next (by decide), by decide, rfl, by decide⟩

theorem witness_OnlyStoresChangeMemory :
    storesWord .ret = false ∧ ∃ t, exec .ret (st 0 [(1, 0x7FFE)] []) = .next t := ⟨rfl, exists_next (by decide)⟩

theorem witness_NoInstructionChangesTheInterruptFlags :
    (registersRead (.addReg 0 0)).count regINT = 2 ∧ (registersRead (.pull 0)).count regINT = 0 ∧
    ∃ t, exec (.addReg 0 0) ({ st 0 [] [] with irqInputs := [0x01, 0x02, 0x03] }) = .next t :=
  ⟨by decide, by decide, _, rfl⟩

theorem witness_OtherInstructionsAdvanceThePcByTheirLength :
    isControlFlow (.lsrImm 3) = false ∧ (∃ t, exec (.lsrImm 3) (st 0xFFFE [] []) = .next t) ∧
    (st 0xFFFE [] []).pc.getLsbD 0 = false := ⟨rfl, ⟨_, rfl⟩, by decide⟩

end Sys2Proof.Tests
end

/-! PROOFS. The state (10_state.md): canonical memory, the flags of ADD, what one instruction can change, and the
registers. -/

namespace Sys2Proof.StateProofs

open Sys2Proof.Machine Sys2Proof.Safety

/-! ### Canonical memory: what it lists is what it reads as -/

theorem mem_of_read_ne_unlisted {m : Memory} {a : Nat} (h : Memory.read m a ≠ Config.unlistedByte) :
    (a, Memory.read m a) ∈ m := by
  induction m with
  | nil => exact absurd rfl h
  | cons c m ih =>
    obtain ⟨b, v⟩ := c
    by_cases hb : b = a
    · subst hb
      simp [Memory.read_cons_self]
    · rw [Memory.read_cons_other m v hb] at h ⊢
      exact List.mem_cons_of_mem _ (ih h)

theorem read_of_mem {m : Memory} (hm : m.Pairwise (fun c d => c.1 < d.1)) {c : Host.Cell} (hc : c ∈ m) :
    Memory.read m c.1 = c.2 := by
  induction m with
  | nil => cases hc
  | cons d m ih =>
    obtain ⟨hd, hm⟩ := List.pairwise_cons.1 hm
    rcases List.mem_cons.1 hc with rfl | hc
    · exact Memory.read_cons_self m c.1 c.2
    · exact (Memory.read_cons_other m d.2 (Nat.ne_of_lt (hd c hc))).trans (ih hm hc)

theorem mem_iff_read {m : Memory} (hm : Memory.wf m) (c : Host.Cell) :
    c ∈ m ↔ Memory.read m c.1 = c.2 ∧ c.2 ≠ Config.unlistedByte := by
  obtain ⟨hrise, hlisted⟩ := hm
  refine ⟨fun hc => ⟨read_of_mem hrise hc, (hlisted c hc).2⟩, fun ⟨hread, hne⟩ => ?_⟩
  have hmem := mem_of_read_ne_unlisted (hread ▸ hne)
  rwa [hread] at hmem

/-- Settles O15: the cells that a canonical memory lists are determined by its reads, and rising lists with the same cells
are equal. -/
theorem canonicalMemoriesWithEqualBytesAreEqual : Obligations.CanonicalMemoriesWithEqualBytesAreEqual := by
  intro m k hm hk hread
  have : Std.Irrefl fun c d : Host.Cell => c.1 < d.1 := ⟨fun c => Nat.lt_irrefl c.1⟩
  have : Std.Antisymm fun c d : Host.Cell => c.1 < d.1 := ⟨fun _ _ h h' => absurd h (Nat.lt_asymm h')⟩
  refine hm.1.eq_of_mem_iff hk.1 fun c => ?_
  rw [mem_iff_read hm, mem_iff_read hk, hread]

/-! ### The flags in arithmetic -/

theorem signOf_eq_decide (w : Word) : signOf w = decide (32768 ≤ w.toNat) := by
  have := w.isLt
  rw [signOf, BitVec.getLsbD, Nat.testBit_eq_decide_div_mod_eq, decide_eq_decide]
  omega

theorem zeroOf_eq_true_iff (w : Word) : zeroOf w = true ↔ w.toNat = 0 := by
  rw [zeroOf, beq_iff_eq, ← BitVec.toNat_inj]; rfl

/-- FS and FZ computed from a result are its bit 15 and the test for 0 (R112). -/
theorem signAndZeroOf_of_flags {t : State} {r : Word} (hs : t.flags.fs = signOf r) (hz : t.flags.fz = zeroOf r) :
    SignAndZeroOf t r := by
  refine ⟨?_, ?_⟩
  · rw [hs, signOf_eq_decide, decide_eq_true_iff]
  · rw [hz, zeroOf_eq_true_iff]

/-- FC of ADD, bit 16 of the 17-bit sum (R113), is the carry out of bit 15 (R31). -/
theorem flagsAdd_fc (a b : Word) : (flagsAdd a b).fc = carryOutOfMsb a b := by
  have := a.isLt
  have := b.isLt
  have hsum : (a.zeroExtend 17 + b.zeroExtend 17).toNat = a.toNat + b.toNat := by
    simp only [BitVec.toNat_add, BitVec.truncate_eq_setWidth, BitVec.toNat_setWidth]
    omega
  rw [flagsAdd, BitVec.getLsbD, hsum, Nat.testBit_eq_decide_div_mod_eq, carryOutOfMsb, decide_eq_decide]
  omega

/-- FO of ADD, by the signs (R113), says that the carries out of and into bit 15 differ (R31; log 26). -/
theorem flagsAdd_fo (a b : Word) : (flagsAdd a b).fo = (carryOutOfMsb a b != carryIntoMsb a b) := by
  have := a.isLt
  have := b.isLt
  have hsum : (a + b).toNat = (a.toNat + b.toNat) % 65536 := by rw [BitVec.toNat_add]
  simp only [flagsAdd, signOf_eq_decide, carryOutOfMsb, carryIntoMsb, hsum]
  rw [Bool.eq_iff_iff]
  simp only [Bool.and_eq_true, beq_iff_eq, bne_iff_ne, ne_eq, decide_eq_decide]
  omega

/-- Whatever its operand, ADD leaves the flags of its two source values. -/
theorem addFlags_of_next {s t : State} {x : RegNum} {src : Operand} (h : aluArith (· + ·) flagsAdd x src s = .next t) :
    t.flags = flagsAdd (s.regValue x) (src.value (s.afterRead x)) := by
  cases h
  rfl

/-- In a state with the flags of ADD on `a` and `b`, they are the carries of bit 15 and the tests of the sum (R31). -/
theorem carries_of_flagsAdd {t : State} {a b : Word} (h : t.flags = flagsAdd a b) :
    t.flags.fc = carryOutOfMsb a b ∧ t.flags.fo = (carryOutOfMsb a b != carryIntoMsb a b) ∧ SignAndZeroOf t (a + b) :=
  ⟨h ▸ flagsAdd_fc a b, h ▸ flagsAdd_fo a b, signAndZeroOf_of_flags (h ▸ rfl) (h ▸ rfl)⟩

/-- Settles O17: both forms leave the flags of `flagsAdd`, whose FC and FO are the carries of bit 15. -/
theorem addFlagsAreTheCarriesOfTheMsb : Obligations.AddFlagsAreTheCarriesOfTheMsb :=
  fun _ _ _ => ⟨fun y h => carries_of_flagsAdd (addFlags_of_next (src := .reg y) h),
    fun imm h => carries_of_flagsAdd (addFlags_of_next (src := .imm imm) h)⟩

/-! ### What reading operands leaves behind -/

/-- `u` is `s` after reads of the registers `rs`, and free values drawn: the core is unchanged, and each read of x0 took
one sample of `IFLAGS` (R22, R24, R26). -/
structure AfterReads (rs : List RegNum) (s u : State) : Prop where
  gpr : u.gpr = s.gpr
  imask : u.imask = s.imask
  pc : u.pc = s.pc
  flags : u.flags = s.flags
  mem : u.mem = s.mem
  inputs : u.irqInputs = s.irqInputs.drop (rs.count regINT)

/-- The registers that an operand reads. -/
def operandReads : Operand → List RegNum
  | .reg n => [n]
  | .imm _ => []

theorem afterReads_none (s : State) : AfterReads [] s s := ⟨rfl, rfl, rfl, rfl, rfl, rfl⟩

theorem afterReads_reg (s : State) (n : RegNum) : AfterReads [n] s (s.afterRead n) :=
  ⟨by simp, by simp, by simp, by simp, by simp, s.afterRead_irqInputs n⟩

theorem afterReads_operand (s : State) (o : Operand) : AfterReads (operandReads o) s (o.after s) := by
  cases o with
  | reg n => exact afterReads_reg s n
  | imm v => exact afterReads_none s

theorem AfterReads.drawn {rs : List RegNum} {s u : State} (h : AfterReads rs s u) : AfterReads rs s u.drawn :=
  ⟨h.gpr, h.imask, h.pc, h.flags, h.mem, h.inputs⟩

theorem AfterReads.trans {rs rs' : List RegNum} {s u w : State} (h : AfterReads rs s u) (h' : AfterReads rs' u w) :
    AfterReads (rs ++ rs') s w where
  gpr := h'.gpr.trans h.gpr
  imask := h'.imask.trans h.imask
  pc := h'.pc.trans h.pc
  flags := h'.flags.trans h.flags
  mem := h'.mem.trans h.mem
  inputs := by rw [h'.inputs, h.inputs, List.drop_drop, List.count_append]

theorem AfterReads.regValue {rs : List RegNum} {s u : State} (h : AfterReads rs s u) {n : RegNum} (hn : n ≠ regINT) :
    u.regValue n = s.regValue n := by
  simp only [State.regValue_gpr _ hn, h.gpr]

/-! ### What an instruction can change -/

/-- The parts of the state that an instruction may change, and how it moves the pc if it is no control transfer. -/
structure Footprint where
  /-- The destination register, if there is one (R85). -/
  dest : Option RegNum
  /-- SP moves (R27). -/
  sp : Bool := false
  /-- The flags are written (R112). -/
  alu : Bool := false
  /-- The registers read (R85). -/
  reads : List RegNum
  /-- A word of memory may be written (R52). -/
  stores : Bool := false
  /-- The pc may go to a target (R28). -/
  jumps : Bool := false
  /-- The length in bytes (R29). -/
  len : Word

/-- The footprint of an instruction, by the classifications in which the statements are made. -/
def footprint (i : Instr) : Footprint where
  dest := destination i
  sp := movesSP i
  alu := isAlu i
  reads := registersRead i
  stores := storesWord i
  jumps := isControlFlow i
  len := BitVec.ofNat 16 i.lengthBytes

/-- From `s` to `t` nothing changed outside the footprint. -/
structure Within (p : Footprint) (s t : State) : Prop where
  regs : ∀ n, n ≠ regINT → p.dest ≠ some n → (n = regSP → p.sp = false) → t.regValue n = s.regValue n
  imask : p.dest ≠ some regINT → t.imask = s.imask
  flags : p.alu = false → t.flags = s.flags
  inputs : t.irqInputs = s.irqInputs.drop (p.reads.count regINT)
  mem : t.mem = s.mem ∨ p.stores = true ∧ OneWordAtMost s.mem t.mem
  pc : p.jumps = false → t.pc = s.pc + p.len

theorem writeReg_imask_of_ne (s : State) {x : RegNum} (v : Word) (h : some x ≠ some regINT) :
    (s.writeReg x v).imask = s.imask :=
  s.writeReg_imask (fun e => h (congrArg some e)) v

/-- An instruction that reads, writes its destination and goes on: the ALU instructions, MOV and LDW. The last two write no
flag; for them `f` is the flags as they are. -/
theorem AfterReads.within_write {rs : List RegNum} {s u : State} (h : AfterReads rs s u) (x : RegNum) (v len : Word)
    {alu : Bool} {f : Flags} (hf : alu = false → f = s.flags) :
    Within { dest := some x, alu := alu, reads := rs, len := len } s
      (((u.writeReg x v).setFlags f).setPc (s.pc + len)) where
  regs n hn hx _ := by
    have hne : n ≠ x := fun e => hx (congrArg some e.symm)
    simpa [State.regValue_writeReg_other _ hne] using h.regValue hn
  imask hx := (writeReg_imask_of_ne u v hx).trans h.imask
  flags := hf
  inputs := by simpa using h.inputs
  mem := .inl (by simpa using h.mem)
  pc _ := rfl

/-- An instruction that reads, stores a word, moves SP and goes on or away: PUSH and CALL. -/
theorem AfterReads.within_push {rs : List RegNum} {s u : State} (h : AfterReads rs s u) {m : Memory}
    (hm : OneWordAtMost s.mem m) (sp pc len : Word) {jumps : Bool} (hpc : jumps = false → pc = s.pc + len) :
    Within { dest := none, sp := true, reads := rs, stores := true, jumps := jumps, len := len } s
      (((u.setMem m).writeReg regSP sp).setPc pc) where
  regs n hn _ hsp := by
    have hne : n ≠ regSP := fun e => Bool.noConfusion (hsp e)
    simpa [State.regValue_writeReg_other _ hne] using h.regValue hn
  imask _ := (State.writeReg_imask _ (by decide) sp).trans h.imask
  flags _ := by simpa using h.flags
  inputs := by simpa using h.inputs
  mem := .inr ⟨rfl, by simpa using hm⟩
  pc := hpc

/-! ### Each family stays within its footprint -/

section Families

variable {s t : State} {x : RegNum} {src : Operand}

theorem aluArith_within {f : Word → Word → Word} {fl : Word → Word → Flags} (h : aluArith f fl x src s = .next t) :
    Within { dest := some x, alu := true, reads := x :: operandReads src, len := src.len } s t := by
  have hr := (afterReads_reg s x).trans (afterReads_operand (s.afterRead x) src)
  cases h
  rw [npc, hr.pc]
  exact hr.within_write x _ _ (fun e => Bool.noConfusion e)

/-- The six logical and shift instructions, after their reads. -/
theorem logicFinish_within {rs : List RegNum} {u : State} (hr : AfterReads rs s u) {r len : Word}
    (h : logicFinish u x r len = .next t) : Within { dest := some x, alu := true, reads := rs, len := len } s t := by
  rw [logicFinish_next, hr.pc] at h
  cases h
  exact hr.drawn.within_write x _ _ (fun e => Bool.noConfusion e)

theorem aluLogic_within {f : Word → Word → Word} (h : aluLogic f x src s = .next t) :
    Within { dest := some x, alu := true, reads := x :: operandReads src, len := src.len } s t :=
  logicFinish_within ((afterReads_reg s x).trans (afterReads_operand (s.afterRead x) src)) h

theorem aluNot_within (h : aluNot x src s = .next t) :
    Within { dest := some x, alu := true, reads := operandReads src, len := src.len } s t :=
  logicFinish_within (afterReads_operand s src) h

theorem aluShift_within {f : Word → Word} {len : Word} (h : aluShift f x len s = .next t) :
    Within { dest := some x, alu := true, reads := [x], len := len } s t :=
  logicFinish_within (afterReads_reg s x) h

theorem moveOp_within (h : moveOp x src s = .next t) :
    Within { dest := some x, reads := operandReads src, len := src.len } s t := by
  have hr := afterReads_operand s src
  cases h
  exact hr.within_write x _ _ (f := ((src.after s).writeReg x (src.value s)).flags) fun _ => by simp

theorem loadOp_within (h : loadOp x src s = .next t) :
    Within { dest := some x, reads := operandReads src, len := src.len } s t := by
  have hr := afterReads_operand s src
  cases ho : isOdd (src.value s) with
  | true => rw [loadOp_odd ho] at h; cases h
  | false =>
    rw [loadOp_even ho] at h
    cases h
    exact hr.within_write x _ _ (f := ((src.after s).writeReg x _).flags) fun _ => by simp

theorem storeOp_within (h : storeOp x src s = .next t) :
    Within { dest := none, reads := operandReads src ++ [x], stores := true, len := src.len } s t := by
  have hr := (afterReads_operand s src).trans (afterReads_reg (src.after s) x)
  have hm := storeOp_mem h
  cases ho : isOdd (src.value s) with
  | true => rw [storeOp_odd ho] at h; cases h
  | false =>
    rw [storeOp_even ho] at h
    cases h
    exact {
      regs := fun _ hn _ _ => hr.regValue hn
      imask := fun _ => hr.imask
      flags := fun _ => hr.flags
      inputs := hr.inputs
      mem := .inr ⟨rfl, hm⟩
      pc := fun _ => rfl }

theorem branchOp_within {taken : Flags → Bool} {len : Word} (h : branchOp taken src s = .next t) :
    Within { dest := none, reads := operandReads src, jumps := true, len := len } s t := by
  have hr := afterReads_operand s src
  cases h
  exact {
    regs := fun _ hn _ _ => hr.regValue hn
    imask := fun _ => hr.imask
    flags := fun _ => hr.flags
    inputs := hr.inputs
    mem := .inl hr.mem
    pc := fun e => Bool.noConfusion e }

theorem callOp_within {len : Word} (h : callOp src s = .next t) :
    Within { dest := none, sp := true, reads := operandReads src, stores := true, jumps := true, len := len } s t := by
  have hm := callOp_mem h
  cases ho : isOdd (s.regValue regSP) with
  | true => rw [callOp_odd ho] at h; cases h
  | false =>
    rw [callOp_even ho] at h
    cases h
    exact (afterReads_operand s src).within_push (by simpa using hm) _ _ _ (fun e => Bool.noConfusion e)

theorem execPush_within (h : execPush x s = .next t) :
    Within { dest := none, sp := true, reads := [x], stores := true, len := 2#16 } s t := by
  have hm := execPush_mem h
  cases ho : isOdd (s.regValue regSP) with
  | true => rw [execPush_odd ho] at h; cases h
  | false =>
    rw [execPush_even ho] at h
    cases h
    exact (afterReads_reg s x).within_push (by simpa using hm) _ _ _ (fun _ => rfl)

theorem execRet_within {len : Word} (h : execRet s = .next t) :
    Within { dest := none, sp := true, reads := [], jumps := true, len := len } s t := by
  cases ho : isOdd (s.regValue regSP) with
  | true => rw [execRet_odd ho] at h; cases h
  | false =>
    rw [execRet_even ho] at h
    cases h
    exact {
      regs := fun n _ _ hsp => s.regValue_writeReg_other (fun e => Bool.noConfusion (hsp e)) _
      imask := fun _ => s.writeReg_imask (by decide) _
      flags := fun _ => by simp
      inputs := by simp
      mem := .inl (by simp)
      pc := fun e => Bool.noConfusion e }

theorem execPull_within (h : execPull x s = .next t) :
    Within { dest := some x, sp := true, reads := [], len := 2#16 } s t := by
  by_cases hx : x = regSP
  · subst hx; rw [execPull_sp] at h; cases h
  · cases ho : isOdd (s.regValue regSP) with
    | true => rw [execPull_odd hx ho] at h; cases h
    | false =>
      rw [execPull_even hx ho] at h
      cases h
      exact {
        regs := fun n _ hd hsp =>
          (State.regValue_writeReg_other _ (fun e => hd (congrArg some e.symm)) _).trans
            (s.regValue_writeReg_other (fun e => Bool.noConfusion (hsp e)) _)
        imask := fun hd => (writeReg_imask_of_ne _ _ hd).trans (s.writeReg_imask (by decide) _)
        flags := fun _ => by simp
        inputs := by simp
        mem := .inl (by simp)
        pc := fun _ => rfl }

end Families

/-- No instruction changes anything outside its footprint. -/
theorem exec_within {s t : State} {i : Instr} (h : exec i s = .next t) : Within (footprint i) s t := by
  cases i with
  | movReg x y => exact moveOp_within (src := .reg y) h
  | movImm x imm => exact moveOp_within (src := .imm imm) h
  | addReg x y => exact aluArith_within (src := .reg y) h
  | addImm x imm => exact aluArith_within (src := .imm imm) h
  | subReg x y => exact aluArith_within (src := .reg y) h
  | subImm x imm => exact aluArith_within (src := .imm imm) h
  | andReg x y => exact aluLogic_within (src := .reg y) h
  | andImm x imm => exact aluLogic_within (src := .imm imm) h
  | orReg x y => exact aluLogic_within (src := .reg y) h
  | orImm x imm => exact aluLogic_within (src := .imm imm) h
  | xorReg x y => exact aluLogic_within (src := .reg y) h
  | xorImm x imm => exact aluLogic_within (src := .imm imm) h
  | notReg x y => exact aluNot_within (src := .reg y) h
  | notImm x imm => exact aluNot_within (src := .imm imm) h
  | lsrReg x => exact aluShift_within h
  | lsrImm x => exact aluShift_within h
  | lslReg x => exact aluShift_within h
  | lslImm x => exact aluShift_within h
  | ldwReg x y => exact loadOp_within (src := .reg y) h
  | ldwImm x imm => exact loadOp_within (src := .imm imm) h
  | sdwReg x y => exact storeOp_within (src := .reg y) h
  | sdwImm x imm => exact storeOp_within (src := .imm imm) h
  | jmpReg x => exact branchOp_within (taken := fun _ => true) (src := .reg x) h
  | jmpImm imm => exact branchOp_within (taken := fun _ => true) (src := .imm imm) h
  | breReg x => exact branchOp_within (src := .reg x) h
  | breImm imm => exact branchOp_within (src := .imm imm) h
  | bneReg x => exact branchOp_within (src := .reg x) h
  | bneImm imm => exact branchOp_within (src := .imm imm) h
  | bgtReg x => exact branchOp_within (src := .reg x) h
  | bgtImm imm => exact branchOp_within (src := .imm imm) h
  | blsReg x => exact branchOp_within (src := .reg x) h
  | blsImm imm => exact branchOp_within (src := .imm imm) h
  | callReg x => exact callOp_within (src := .reg x) h
  | callImm imm => exact callOp_within (src := .imm imm) h
  | ret => exact execRet_within h
  | push x => exact execPush_within h
  | pull x => exact execPull_within h
  | int => cases h

/-! ### The invariants and frames of every instruction -/

theorem wf_of_oneWordAtMost {m k : Memory} (h : OneWordAtMost m k) (hm : Memory.wf m) : Memory.wf k := by
  rcases h with rfl | ⟨addr, v, -, rfl⟩
  · exact hm
  · exact Memory.wf_writeWord hm addr v

theorem Within.wf {p : Footprint} {s t : State} (h : Within p s t) (hs : Memory.wf s.mem) : Memory.wf t.mem := by
  rcases h.mem with e | ⟨-, hone⟩
  · exact e ▸ hs
  · exact wf_of_oneWordAtMost hone hs

/-- Settles O45: a step samples, which leaves memory alone, and runs an instruction, which writes one word at most. -/
theorem stepKeepsMemoryCanonical : Obligations.StepKeepsMemoryCanonical := by
  intro s t hs h
  obtain ⟨i, -, hexec⟩ := step_next h
  exact (exec_within hexec).wf hs

/-- Settles O48, from the footprint's flags. -/
theorem onlyAluInstructionsWriteFlags : Obligations.OnlyAluInstructionsWriteFlags :=
  fun _ _ _ halu h => (exec_within h).flags halu

/-- Settles O49, from the footprint's registers and mask. -/
theorem onlyDestinationsAndTheStackPointerAreWritten : Obligations.OnlyDestinationsAndTheStackPointerAreWritten :=
  fun _ _ _ h => ⟨(exec_within h).regs, (exec_within h).imask⟩

/-- Settles O51, from the footprint's reads of x0. -/
theorem noInstructionChangesTheInterruptFlags : Obligations.NoInstructionChangesTheInterruptFlags :=
  fun _ _ _ h => (exec_within h).inputs

theorem getLsbD_zero_eq_false_iff (w : Word) : w.getLsbD 0 = false ↔ w.toNat % 2 = 0 := by
  simp [BitVec.getLsbD, Nat.testBit_zero]

/-- Settles O52: the footprint's length is added to pc, and a length is a number of words. -/
theorem otherInstructionsAdvanceThePcByTheirLength : Obligations.OtherInstructionsAdvanceThePcByTheirLength := by
  intro s t i hcf h
  have hpc : t.pc = s.pc + BitVec.ofNat 16 i.lengthBytes := (exec_within h).pc hcf
  have hnat : t.pc.toNat = (s.pc.toNat + i.lengthBytes) % 65536 := by
    rw [hpc, BitVec.toNat_add, BitVec.toNat_ofNat, Nat.add_mod_mod]
  refine ⟨hnat, fun heven => ?_⟩
  rw [getLsbD_zero_eq_false_iff] at heven ⊢
  rw [hnat, Instr.lengthBytes]
  omega

/-! ### Reads and writes of registers -/

/-- R23, R25: no register write changes an interrupt flag. -/
@[simp] theorem iflags_writeReg (s : State) (n : RegNum) (v : Word) : (s.writeReg n v).iflags = s.iflags := by
  simp [State.iflags]

/-- Settles O10, by the laws of `afterRead`, `regValue` and `writeReg` at x1 to x15. -/
theorem generalRegistersReadBackWrites : Obligations.GeneralRegistersReadBackWrites :=
  fun s _ v hn => ⟨s.afterRead_gpr_reg hn, s.regValue_writeReg_same hn v,
    fun _ hk _ => s.regValue_writeReg_other hk v, iflags_writeReg s _ v, s.writeReg_imask hn v,
    s.writeReg_pc _ v, s.writeReg_flags _ v, s.writeReg_mem _ v, s.writeReg_irqInputs _ v, s.writeReg_draws _ v⟩

/-- Settles O11: a write of x0 replaces the mask, by the low byte of the value. -/
theorem writeOfInterruptRegisterSetsMaskOnly : Obligations.WriteOfInterruptRegisterSetsMaskOnly := by
  intro s v
  refine ⟨rfl, fun w hw => ?_, fun _ hn => s.regValue_writeReg_other hn v, iflags_writeReg s _ v,
    s.writeReg_pc _ v, s.writeReg_flags _ v, s.writeReg_mem _ v, s.writeReg_irqInputs _ v, s.writeReg_draws _ v⟩
  exact congrArg s.setIMask hw

/-- Settles O12: the mask is not an input of the read, and the read takes one sample. -/
theorem readOfInterruptRegisterGivesFlags : Obligations.ReadOfInterruptRegisterGivesFlags := by
  intro s m
  have hflags : (s.regValue regINT).extractLsb' 8 8 = s.iflags := hiByte_wordOfBytes _ _
  refine ⟨hflags, ?_, s.afterRead_gpr _, s.afterRead_imask _, s.afterRead_pc _, s.afterRead_flags _,
    s.afterRead_mem _, ?_, ?_⟩
  · rw [State.regValue_setIMask, hflags]
  · rw [State.afterRead_int, State.sampled_irqInputs]
  · rw [State.afterRead_int, State.sampled_draws]
    exact Nat.succ_ne_self _

/-- Settles O46: at reset no byte is listed and the flags are clear. -/
theorem resetMeetsTheInvariants : Obligations.ResetMeetsTheInvariants :=
  ⟨Memory.wf_nil, by decide⟩

end Sys2Proof.StateProofs

/-! PROOFS. Memory (20_memory.md): word accesses and their alignment, a PULL after a PUSH, fetch from what was stored, and
the instructions that store. -/

namespace Sys2Proof.MemoryProofs

open Sys2Proof.Machine Sys2Proof.Safety Sys2Proof.StateProofs

/-! ### A word at an address -/

theorem wordStored_of_mem {s t : State} {addr v : Word} (h : t.mem = s.mem.writeWord addr v) : WordStored s t addr v := by
  rw [WordStored, h]
  exact ⟨s.mem.read_writeWord_lo addr v, s.mem.read_writeWord_hi addr v, fun _ => s.mem.read_writeWord_other addr v⟩

theorem readWord_of_wordStored {s t : State} {addr v : Word} (h : WordStored s t addr v) :
    t.mem.readWord addr = v := by
  obtain ⟨hlo, hhi, -⟩ := h
  rw [Memory.readWord, hlo, hhi, wordOfBytes_lo_hi]

/-- Settles O14: the memory operations at an even and at an odd address, and the laws of a word written. -/
theorem wordWrittenIsReadBack : Obligations.WordWrittenIsReadBack := by
  intro s addr v
  refine ⟨fun heven => ⟨s.setMem (s.mem.writeWord addr v), memWrite_even heven v, ?_, wordStored_of_mem rfl, rfl,
    memRead_even heven⟩, fun hodd => ⟨memWrite_odd hodd v, memRead_odd hodd⟩⟩
  rw [memRead_even heven, State.setMem_mem, Memory.readWord_writeWord_self]

/-! ### Odd data addresses -/

/-- Settles O35: each family stops at its own address when that is odd, and SP + 2 is odd with SP. -/
theorem oddDataAddressStops : Obligations.OddDataAddressStops := by
  intro s x
  refine ⟨fun y hodd => ⟨?_, ?_⟩, fun addr hodd => ⟨?_, ?_⟩, fun hodd => ⟨?_, ?_, fun imm => ?_, ?_, fun hx => ?_⟩⟩
  · exact loadOp_odd (addr := .reg y) hodd x
  · exact storeOp_odd (addr := .reg y) hodd x
  · exact loadOp_odd (addr := .imm addr) hodd x
  · exact storeOp_odd (addr := .imm addr) hodd x
  · exact execPush_odd hodd x
  · exact callOp_odd hodd (.reg x)
  · exact callOp_odd hodd (.imm imm)
  · exact execRet_odd hodd
  · exact execPull_odd hx hodd

/-! ### A PULL after a PUSH -/

/-- An instruction that reads, stores a word at SP and moves SP down has pushed that word: PUSH and CALL (R162). -/
theorem pushEffect_of_afterReads {rs : List RegNum} {s u : State} (h : AfterReads rs s u) (v pc : Word) :
    PushEffect s (((u.setMem (s.mem.writeWord (s.regValue regSP) v)).writeReg regSP (s.regValue regSP - slot)).setPc pc)
      v := by
  refine ⟨wordStored_of_mem (by simp), ⟨fun n hn => ?_, ?_⟩, by simpa using h.flags⟩
  · rw [State.regValue_setPc]
    split
    · next e => rw [e]; exact State.regValue_writeReg_same _ (by decide) _
    · next hne => rw [State.regValue_writeReg_other _ hne, State.regValue_setMem, h.regValue hn]
  · exact (State.writeReg_imask _ (by decide) _).trans h.imask

/-- A PUSH that completes found an even SP and has pushed its register. -/
theorem pushEffect_of_execPush {s t : State} {x : RegNum} (h : execPush x s = .next t) :
    isOdd (s.regValue regSP) = false ∧ PushEffect s t (s.regValue x) := by
  cases ho : isOdd (s.regValue regSP) with
  | true => rw [execPush_odd ho] at h; cases h
  | false =>
    rw [execPush_even ho] at h
    cases h
    exact ⟨rfl, pushEffect_of_afterReads (afterReads_reg s x) _ _⟩

/-- After a push the slot above SP is the one that SP pointed at before (R162). -/
theorem pullAddr_of_pushEffect {s t : State} {v : Word} (h : PushEffect s t v) : pullAddr t = s.regValue regSP := by
  obtain ⟨-, ⟨hregs, -⟩, -⟩ := h
  rw [pullAddr, hregs regSP (by decide), if_pos rfl, slot, BitVec.sub_add_cancel]

/-- A PULL that follows a push puts SP back and the pushed word into its register. -/
theorem execPull_of_pushEffect {s t : State} {x : RegNum} {v : Word} (h : PushEffect s t v)
    (heven : isOdd (s.regValue regSP) = false) (hx : x ≠ regSP) :
    execPull x t = .next (((t.writeReg regSP (s.regValue regSP)).writeReg x v).setPc (t.pc + 2#16)) := by
  have haddr := pullAddr_of_pushEffect h
  have ⟨hstored, _⟩ := h
  have heven' : isOdd (t.regValue regSP) = false := by rw [← isOdd_add_slot, ← pullAddr, haddr, heven]
  rw [execPull_even hx heven', haddr, readWord_of_wordStored hstored]

/-- Where one register was written, writing its old value back restores x1 to x15. -/
theorem regValue_writeReg_of_regWritten {s t : State} {x n : RegNum} {v : Word} (h : RegWritten s t x v)
    (hn : n ≠ regINT) :
    (t.writeReg x (s.regValue x)).regValue n = s.regValue n := by
  by_cases e : n = x
  · rw [e, State.regValue_writeReg_same _ (e ▸ hn)]
  · obtain ⟨hregs, -⟩ := h
    rw [State.regValue_writeReg_other _ e, hregs n hn, if_neg e]

/-- Settles O34: the PULL loads the slot that the PUSH stored to, and SP is back where it was. -/
theorem pullAfterPushReturnsThePushedWord : Obligations.PullAfterPushReturnsThePushedWord := by
  intro s t x y hy h
  obtain ⟨heven, hpush⟩ := pushEffect_of_execPush h
  have ⟨_, hsp, hflags⟩ := hpush
  have himask : t.imask = s.imask := hsp.2
  have hother : ∀ n, n ≠ regINT → n ≠ y →
      ((t.writeReg regSP (s.regValue regSP)).writeReg y (s.regValue x)).regValue n = s.regValue n := fun n hn hne =>
    (State.regValue_writeReg_other _ hne _).trans (regValue_writeReg_of_regWritten hsp hn)
  refine ⟨_, execPull_of_pushEffect hpush heven hy, hother regSP (by decide) hy.symm, fun hy0 => ?_, fun hy0 => ?_,
    fun hy0 => ?_, hother, ?_⟩
  · exact State.regValue_writeReg_same _ hy0 _
  · rw [hy0, State.setPc_imask, State.writeReg_int, State.setIMask_imask]
  · rw [State.setPc_imask, State.writeReg_imask _ hy0, State.writeReg_imask _ (by decide), himask]
  · simpa using hflags

/-! ### Fetch -/

/-- The sample that the interrupt check takes is not seen by the fetch. -/
theorem fetchDecode_sampled (s : State) : fetchDecode s.sampled = fetchDecode s := fetchDecode_congr rfl rfl

theorem step_of_fetchDecode_ok {s : State} {i : Instr} (hq : s.iflags &&& s.imask = 0#8) (h : fetchDecode s = .ok i) :
    step s = exec i s.sampled := by
  simp [step, interruptCheck_quiet hq, fetchDecode_sampled, h]

theorem step_of_fetchDecode_error {s : State} {f : Fault} (hq : s.iflags &&& s.imask = 0#8)
    (h : fetchDecode s = .error f) : step s = .fault f := by
  simp [step, interruptCheck_quiet hq, fetchDecode_sampled, h]

/-- Settles O40: the interrupt check passes and the fetch stops. -/
theorem oddPcStopsTheFetch : Obligations.OddPcStopsTheFetch :=
  fun _ hq hodd => step_of_fetchDecode_error hq (fetchDecode_odd hodd)

theorem isOdd_add_four (a : Word) : isOdd (a + 4#16) = isOdd a := by
  rw [show a + 4#16 = a + slot + slot from (BitVec.add_assoc a slot slot).symm, isOdd_add_slot, isOdd_add_slot]

/-- Settles O44: SDW leaves pc at the address it stored to, so the next fetch reads the stored word. -/
theorem storedWordIsFetchedByTheNextStep : Obligations.StoredWordIsFetchedByTheNextStep := by
  intro s x i hmask heven _ hdecode
  have heven' : isOdd (s.pc + 4#16) = false := (isOdd_add_four s.pc).trans heven
  refine ⟨_, storeOp_even (addr := .imm (s.pc + 4#16)) heven' x, step_of_fetchDecode_ok ?_ ?_⟩
  · simp [Operand.after, hmask]
  · refine fetchDecode_instr heven' ?_
    have hfetched : (s.mem.writeWord (s.pc + 4#16) (s.regValue x)).readWord (s.pc + 4#16) = s.regValue x :=
      Memory.readWord_writeWord_self _ _ _
    exact hfetched ▸ hdecode _

/-! ### The instructions that store -/

/-- Settles O50, from the footprint's memory. -/
theorem onlyStoresChangeMemory : Obligations.OnlyStoresChangeMemory := by
  intro s t i hstores h a
  rcases (exec_within h).mem with hsame | ⟨hstore, -⟩
  · rw [hsame]
  · exact absurd hstore (Bool.eq_false_iff.1 hstores)

end Sys2Proof.MemoryProofs

/-! PROOFS. Encoding (30_encoding.md): what the decoder makes of the fields of a core word, decoding what was encoded, and
the rows and the reserved classes as patterns under masks. -/

namespace Sys2Proof.EncodingProofs

open Sys2Proof.Machine Sys2Proof.MemoryProofs

/-! ### The high byte of a core word, from its fields (R81) -/

/-- The high byte whose fields are OOO, a, AAA and i. -/
def highByte (ooo : BitVec 3) (a : Bool) (aaa : BitVec 3) (i : Bool) : Byte :=
  ooo ++ BitVec.ofBool a ++ aaa ++ BitVec.ofBool i

section
variable (ooo aaa : BitVec 3) (a i : Bool)

@[simp] theorem highByte_ooo : (highByte ooo a aaa i).extractLsb' 5 3 = ooo := by
  revert ooo a aaa i; decide

@[simp] theorem highByte_a : (highByte ooo a aaa i)[4] = a := by
  revert ooo a aaa i; decide

@[simp] theorem highByte_aaa : (highByte ooo a aaa i).extractLsb' 1 3 = aaa := by
  revert ooo a aaa i; decide

@[simp] theorem highByte_i : (highByte ooo a aaa i)[0] = i := by
  revert ooo a aaa i; decide

end

theorem highByte_fields (h : Byte) : highByte (h.extractLsb' 5 3) h[4] (h.extractLsb' 1 3) h[0] = h := by
  revert h; decide

theorem octal_cases (v : BitVec 3) :
    v = 0#3 ∨ v = 1#3 ∨ v = 2#3 ∨ v = 3#3 ∨ v = 4#3 ∨ v = 5#3 ∨ v = 6#3 ∨ v = 7#3 := by
  revert v; decide

/-- Every core word is put together from its six fields. -/
theorem exists_fields (core : Word) : ∃ ooo a aaa i x y, core = coreWord (highByte ooo a aaa i) x y :=
  ⟨_, _, _, _, fieldX core, fieldY core, by rw [highByte_fields, coreWord_fields]⟩

/-! ### What the decoder makes of each value of OOO and a (R87, R88, R89) -/

section
variable (aaa : BitVec 3) (i : Bool) (x y : RegNum) (imm : Word)

theorem decode_mov :
    decode (coreWord (highByte 0#3 false aaa i) x y) imm = .instr (if i then .movImm x imm else .movReg x y) := by
  simp [decode]

theorem decode_alu :
    decode (coreWord (highByte 0#3 true aaa i) x y) imm = .instr (decodeAlu aaa i x y imm) := by
  simp [decode]

theorem decode_ldw :
    decode (coreWord (highByte 1#3 false aaa i) x y) imm = .instr (if i then .ldwImm x imm else .ldwReg x y) := by
  simp [decode]

theorem decode_sdw :
    decode (coreWord (highByte 2#3 false aaa i) x y) imm = .instr (if i then .sdwImm x imm else .sdwReg x y) := by
  simp [decode]

theorem decode_control :
    decode (coreWord (highByte 3#3 false aaa i) x y) imm = decodeControl aaa i x imm := by
  simp [decode]

theorem decode_push :
    decode (coreWord (highByte 4#3 false aaa i) x y) imm = if i then .reserved .rv5 else .instr (.push x) := by
  simp [decode]

theorem decode_pull :
    decode (coreWord (highByte 5#3 false aaa i) x y) imm = if i then .reserved .rv6 else .instr (.pull x) := by
  simp [decode]

theorem decode_int :
    decode (coreWord (highByte 6#3 false aaa i) x y) imm = if i then .reserved .rv7 else .instr .int := by
  simp [decode]

theorem decode_ooo_seven (a : Bool) :
    decode (coreWord (highByte 7#3 a aaa i) x y) imm = .reserved .rv1 := by
  simp [decode]

theorem decode_a_outside_mov {ooo : BitVec 3} (h0 : ooo ≠ 0#3) (h7 : ooo ≠ 7#3) :
    decode (coreWord (highByte ooo true aaa i) x y) imm = .reserved .rv2 := by
  simp [decode, h0, h7]

end

/-- Settles O4: each row is its OOO with a = 0, at either value of i. -/
theorem dataMovementRowsDecode : Obligations.DataMovementRowsDecode := fun aaa x y imm =>
  ⟨decode_mov aaa false x y imm, decode_mov aaa true x y imm, decode_ldw aaa false x y imm, decode_ldw aaa true x y imm,
    decode_sdw aaa false x y imm, decode_sdw aaa true x y imm⟩

/-- Settles O5: the map of R87 at each value of AAA and i. -/
theorem aluRowsDecode : Obligations.AluRowsDecode := fun x y imm =>
  have row := fun aaa i => decode_alu aaa i x y imm
  ⟨row 0 false, row 0 true, row 1 false, row 1 true, row 2 false, row 2 true, row 3 false, row 3 true,
    row 4 false, row 4 true, row 5 false, row 5 true, row 6 false, row 6 true, row 7 false, row 7 true⟩

/-- Settles O6: the map of R88 at each value of AAA and i that it gives an instruction. -/
theorem controlFlowRowsDecode : Obligations.ControlFlowRowsDecode := fun x y imm =>
  have row := fun aaa i => decode_control aaa i x y imm
  ⟨row 1 false, row 1 true, row 2 false, row 2 true, row 3 false, row 3 true, row 4 false, row 4 true,
    row 5 false, row 5 true, row 6 false, row 6 true, row 7 false⟩

/-- Settles O7: each row is its OOO with a = 0 and i = 0. -/
theorem stackAndSystemRowsDecode : Obligations.StackAndSystemRowsDecode := fun aaa x y imm =>
  ⟨decode_push aaa false x y imm, decode_pull aaa false x y imm, decode_int aaa false x y imm⟩

/-- Settles O9, by running the decoder on the seven words. -/
theorem sampleWordsDecode : Obligations.SampleWordsDecode := by
  unfold Obligations.SampleWordsDecode
  decide

/-! ### Decoding what was encoded (R81, R96) -/

/-- Each form's core word has the fields of its row, so the decoder reaches the form's branch and reads its operands. -/
theorem decode_encode (i : Instr) : decode ((encode i).headD 0#16) ((encode i).getD 1 0#16) = .instr i := by
  cases i <;> simp [encode, decode, decodeAlu, decodeControl]

theorem encode_length (i : Instr) : (encode i).length = i.row.words := by
  cases i <;> rfl

/-! ### Masks over the high byte (R90, R96) -/

theorem coreWord_and_FF00 (h : Byte) (x y : RegNum) : coreWord h x y &&& 0xFF00#16 = coreWord h 0 0 := by
  have hmask : (0xFF00#16 : Word) = coreWord (BitVec.allOnes 8) 0 0 := by decide
  rw [hmask, coreWord_and_high, BitVec.and_allOnes]

theorem coreWord_and_F100 (ooo aaa : BitVec 3) (a i : Bool) (x y : RegNum) :
    coreWord (highByte ooo a aaa i) x y &&& 0xF100#16 = coreWord (highByte ooo a 0#3 i) 0 0 := by
  have hmask : (0xF100#16 : Word) = coreWord 0xF1#8 0 0 := by decide
  have hhigh : highByte ooo a aaa i &&& 0xF1#8 = highByte ooo a 0#3 i := by revert ooo a aaa i; decide
  rw [hmask, coreWord_and_high, hhigh]

/-! ### The class of a reserved word, from its fields (R90) -/

section
variable (aaa : BitVec 3) (a i : Bool) (x y : RegNum)

theorem reservedClass_ooo_seven : reservedClass (coreWord (highByte 7#3 a aaa i) x y) = some .rv1 := by
  rw [reservedClass_coreWord]
  revert a aaa i; decide

theorem reservedClass_a_outside_mov {ooo : BitVec 3} (h0 : ooo ≠ 0#3) (h7 : ooo ≠ 7#3) :
    reservedClass (coreWord (highByte ooo true aaa i) x y) = some .rv2 := by
  rw [reservedClass_coreWord]
  revert ooo aaa i; decide

theorem reservedClass_control_hole : reservedClass (coreWord (highByte 3#3 false 0#3 i) x y) = some .rv3 := by
  rw [reservedClass_coreWord]
  revert i; decide

theorem reservedClass_ret_imm : reservedClass (coreWord (highByte 3#3 false 7#3 true) x y) = some .rv4 := by
  rw [reservedClass_coreWord]
  decide

theorem reservedClass_push_imm : reservedClass (coreWord (highByte 4#3 false aaa true) x y) = some .rv5 := by
  rw [reservedClass_coreWord]
  revert aaa; decide

theorem reservedClass_pull_imm : reservedClass (coreWord (highByte 5#3 false aaa true) x y) = some .rv6 := by
  rw [reservedClass_coreWord]
  revert aaa; decide

theorem reservedClass_int_imm : reservedClass (coreWord (highByte 6#3 false aaa true) x y) = some .rv7 := by
  rw [reservedClass_coreWord]
  revert aaa; decide

end

/-! ### What the decoder gives: a reserved class, or an instruction of the row that the word selects -/

/-- A core word is of a row: the bits under the mask are the pattern (R96), and field i announces the row's number of
words (R83). -/
def OfRow (core : Word) (r : OpRow) : Prop :=
  core &&& r.mask = r.pattern ∧ r.words = if fieldI core then 2 else 1

section
variable (ooo aaa : BitVec 3) (a i : Bool) (x y : RegNum) (imm : Word)

/-- The rows that fix OOO, a, AAA and i: the ALU and control-flow rows. -/
theorem ofRow_FF00 :
    OfRow (coreWord (highByte ooo a aaa i) x y) ⟨coreWord (highByte ooo a aaa i) 0 0, 0xFF00#16, if i then 2 else 1⟩ :=
  ⟨coreWord_and_FF00 _ x y, by simp⟩

/-- The rows that fix OOO, a and i: all others. -/
theorem ofRow_F100 :
    OfRow (coreWord (highByte ooo a aaa i) x y) ⟨coreWord (highByte ooo a 0#3 i) 0 0, 0xF100#16, if i then 2 else 1⟩ :=
  ⟨coreWord_and_F100 ooo aaa a i x y, by simp⟩

theorem decodeAlu_row :
    (decodeAlu aaa i x y imm).row = ⟨coreWord (highByte 0#3 true aaa i) 0 0, 0xFF00#16, if i then 2 else 1⟩ := by
  rcases octal_cases aaa with rfl | rfl | rfl | rfl | rfl | rfl | rfl | rfl <;> cases i <;> rfl

/-- All that the decoder can give for a core word. -/
def DecodesToClassOrRow (core imm : Word) : Prop :=
  (∃ c, decode core imm = .reserved c ∧ reservedClass core = some c) ∨
    ∃ i, decode core imm = .instr i ∧ OfRow core i.row

/-- PUSH, PULL and INT have a row at i = 0 and a class at i = 1. -/
theorem decodesToClassOrRow_one_word {ooo aaa : BitVec 3} {i : Bool} {x y : RegNum} {imm : Word} {c : ReservedClass}
    {j : Instr} (hd : decode (coreWord (highByte ooo false aaa i) x y) imm = if i then .reserved c else .instr j)
    (hclass : reservedClass (coreWord (highByte ooo false aaa true) x y) = some c)
    (hrow : j.row = ⟨coreWord (highByte ooo false 0#3 false) 0 0, 0xF100#16, 1⟩) :
    DecodesToClassOrRow (coreWord (highByte ooo false aaa i) x y) imm := by
  cases i with
  | false => exact .inr ⟨j, hd, hrow ▸ ofRow_F100 ooo aaa false false x y⟩
  | true => exact .inl ⟨c, hd, hclass⟩

theorem decodesToClassOrRow_control : DecodesToClassOrRow (coreWord (highByte 3#3 false aaa i) x y) imm := by
  have hd := decode_control aaa i x y imm
  have hrow := ofRow_FF00 3#3 aaa false i x y
  rcases octal_cases aaa with rfl | rfl | rfl | rfl | rfl | rfl | rfl | rfl
  · exact .inl ⟨_, hd, reservedClass_control_hole i x y⟩
  iterate 6 · cases i <;> exact .inr ⟨_, hd, hrow⟩
  · cases i with
    | false => exact .inr ⟨_, hd, hrow⟩
    | true => exact .inl ⟨_, hd, reservedClass_ret_imm x y⟩

theorem decodesToClassOrRow (core imm : Word) : DecodesToClassOrRow core imm := by
  obtain ⟨ooo, a, aaa, i, x, y, rfl⟩ := exists_fields core
  by_cases h7 : ooo = 7#3
  · subst h7
    exact .inl ⟨_, decode_ooo_seven aaa i x y imm a, reservedClass_ooo_seven aaa a i x y⟩
  cases a with
  | true =>
    by_cases h0 : ooo = 0#3
    · subst h0
      exact .inr ⟨_, decode_alu aaa i x y imm, decodeAlu_row aaa i x y imm ▸ ofRow_FF00 0#3 aaa true i x y⟩
    · exact .inl ⟨_, decode_a_outside_mov aaa i x y imm h0 h7, reservedClass_a_outside_mov aaa i x y h0 h7⟩
  | false =>
    have hrow := ofRow_F100 ooo aaa false i x y
    rcases octal_cases ooo with rfl | rfl | rfl | rfl | rfl | rfl | rfl | rfl
    · exact .inr ⟨_, decode_mov aaa i x y imm, by cases i <;> exact hrow⟩
    · exact .inr ⟨_, decode_ldw aaa i x y imm, by cases i <;> exact hrow⟩
    · exact .inr ⟨_, decode_sdw aaa i x y imm, by cases i <;> exact hrow⟩
    · exact decodesToClassOrRow_control aaa i x y imm
    · exact decodesToClassOrRow_one_word (decode_push aaa i x y imm) (reservedClass_push_imm aaa x y) rfl
    · exact decodesToClassOrRow_one_word (decode_pull aaa i x y imm) (reservedClass_pull_imm aaa x y) rfl
    · exact decodesToClassOrRow_one_word (decode_int aaa i x y imm) (reservedClass_int_imm aaa x y) rfl
    · exact absurd rfl h7

end

theorem ofRow_of_decode {core imm : Word} {i : Instr} (h : decode core imm = .instr i) : OfRow core i.row := by
  rcases decodesToClassOrRow core imm with ⟨c, hc, -⟩ | ⟨j, hj, hrow⟩
  · cases hc.symm.trans h
  · cases hj.symm.trans h
    exact hrow

theorem row_mem_opcodeTable (i : Instr) : i.row ∈ opcodeTable := by
  cases i <;> simp [opcodeTable, oneOfEachForm, Instr.row]

/-- Settles O3, from the row that the decoder gives. -/
theorem decodedWordSelectsItsRow : Obligations.DecodedWordSelectsItsRow := by
  intro core imm i h
  obtain ⟨hselects, hwords⟩ := ofRow_of_decode h
  refine ⟨row_mem_opcodeTable i, hselects, ?_⟩
  rw [hwords, fieldI]
  cases core.getLsbD 8 <;> decide

/-- Settles O8: the row's number of words is what field i announces, and the encoder gives as many. -/
theorem fieldIAloneDecidesTheLength : Obligations.FieldIAloneDecidesTheLength := by
  intro core imm i h
  obtain ⟨-, hwords⟩ := ofRow_of_decode h
  refine ⟨?_, (encode_length i).trans hwords, fun hi other => (decode_imm_irrelevant core other imm hi).trans h⟩
  rw [Instr.lengthBytes, hwords, fieldI]
  split <;> rfl

/-- The encoder gives one word or two, as field i of the first announces, and the decoder reads just these. -/
theorem decodeBytes_encodeBytes (i : Instr) (rest : List Byte) : decodeBytes (encodeBytes i ++ rest) = .ok i rest := by
  have hd := decode_encode i
  obtain ⟨-, hwords⟩ := ofRow_of_decode hd
  rw [← encode_length] at hwords
  rw [encodeBytes]
  match encode i, hd, hwords with
  | [core], hd, hwords => exact decodeBytes_one rest (by simpa using hwords) hd
  | [core, imm], hd, hwords => exact decodeBytes_two rest (by simpa using hwords) hd
  | [], hd, hwords => cases hwords
  | _ :: _ :: _ :: _, hd, hwords => split at hwords <;> cases hwords

/-- Settles O1: the round trip over the words of the encoder, and two bytes for each of them. -/
theorem decodeInvertsEncode : Obligations.DecodeInvertsEncode := by
  refine fun i rest => ⟨decodeBytes_encodeBytes i rest, ?_⟩
  rw [encodeBytes, bytesOfWords_length, encode_length, Instr.lengthBytes]

/-! ### The rows and the classes exclude each other -/

/-- Two patterns that differ on a bit under both masks are not both under a word. -/
theorem not_both_selected {core p m p' m' : Word} (hclash : p &&& m' ≠ p' &&& m) (h : core &&& m = p) :
    core &&& m' ≠ p' := by
  rintro rfl
  exact hclash (by rw [← h, BitVec.and_assoc, BitVec.and_assoc, BitVec.and_comm m])

/-- No two rows of R96 share a core word. -/
theorem rows_clash : opcodeTable.Pairwise fun r r' => r.pattern &&& r'.mask ≠ r'.pattern &&& r.mask := by decide

/-- RV2 asks for a = 1 and OOO other than 000: every row has a = 0, or fixes OOO to 000. -/
theorem rows_outside_rv2 : ∀ r ∈ opcodeTable, r.pattern &&& 0x1000#16 ≠ 0x1000#16 &&& r.mask ∨
    r.mask &&& 0xE000#16 = 0xE000#16 ∧ r.pattern &&& 0xE000#16 = 0x0000#16 := by decide

/-- A word that selects a row is in no class of R90. -/
theorem reservedClass_of_selects {core : Word} {r : OpRow} (hr : r ∈ opcodeTable) (h : core &&& r.mask = r.pattern) :
    reservedClass core = none := by
  have outside {m p : Word} (hclash : ∀ r ∈ opcodeTable, r.pattern &&& m ≠ p &&& r.mask) : core &&& m ≠ p :=
    not_both_selected (hclash r hr) h
  have h1 : core &&& 0xE000#16 ≠ 0xE000#16 := outside (by decide)
  have h2 : ¬ (core &&& 0x1000#16 = 0x1000#16 ∧ core &&& 0xE000#16 ≠ 0x0000#16) := by
    rintro ⟨ha, hooo⟩
    rcases rows_outside_rv2 r hr with hclash | ⟨hmask, hpattern⟩
    · exact not_both_selected hclash h ha
    · exact hooo (by rw [← hmask, ← BitVec.and_assoc, h, hpattern])
  have h3 : core &&& 0xFE00#16 ≠ 0x6000#16 := outside (by decide)
  have h4 : core &&& 0xFF00#16 ≠ 0x6F00#16 := outside (by decide)
  have h5 : core &&& 0xF100#16 ≠ 0x8100#16 := outside (by decide)
  have h6 : core &&& 0xF100#16 ≠ 0xA100#16 := outside (by decide)
  have h7 : core &&& 0xF100#16 ≠ 0xC100#16 := outside (by decide)
  simp only [reservedClass, h1, h2, h3, h4, h5, h6, h7, if_false]

theorem length_le_one_of_pairwise_not {α : Type} {R : α → α → Prop} {l : List α} (hpair : l.Pairwise R)
    (hnot : ∀ a ∈ l, ∀ b ∈ l, ¬ R a b) : l.length ≤ 1 := by
  match l with
  | [] => exact Nat.zero_le 1
  | [_] => exact le_refl 1
  | a :: b :: _ => exact absurd (List.rel_of_pairwise_cons hpair (by simp)) (hnot a (by simp) b (by simp))

theorem selected_length_le_one (core : Word) : (opcodeTable.filter (·.selects core)).length ≤ 1 := by
  have hsel : ∀ r ∈ opcodeTable.filter (·.selects core), core &&& r.mask = r.pattern := fun r hr =>
    beq_iff_eq.1 (List.mem_filter.1 hr).2
  exact length_le_one_of_pairwise_not (rows_clash.filter _) fun r hr r' hr' hclash =>
    not_both_selected hclash (hsel r hr) (hsel r' hr')

/-- The decoder, written from R93, refuses a word under the class that R90's match and mask put it in. -/
theorem decode_reserved_iff (core imm : Word) (c : ReservedClass) :
    decode core imm = .reserved c ↔ reservedClass core = some c := by
  rcases decodesToClassOrRow core imm with ⟨d, hd, hclass⟩ | ⟨i, hi, hselects, -⟩
  · rw [hd, hclass, Decoded.reserved.injEq, Option.some.injEq]
  · rw [hi, reservedClass_of_selects (row_mem_opcodeTable i) hselects]
    simp

theorem selected_length_of_class {core : Word} {c : ReservedClass} (h : reservedClass core = some c) :
    (opcodeTable.filter (·.selects core)).length = 0 := by
  rw [List.length_eq_zero_iff, List.filter_eq_nil_iff]
  intro r hr hselects
  have hnone := reservedClass_of_selects hr (beq_iff_eq.1 hselects)
  cases h.symm.trans hnone

theorem selected_length_of_row {core : Word} {r : OpRow} (hr : r ∈ opcodeTable) (h : core &&& r.mask = r.pattern) :
    (opcodeTable.filter (·.selects core)).length = 1 :=
  le_antisymm (selected_length_le_one core) (List.length_pos_of_mem (List.mem_filter.2 ⟨hr, beq_iff_eq.2 h⟩))

/-- Settles O2: a word decodes to a class, and then selects no row, or to an instruction, and then selects its row
alone. -/
theorem everyCoreWordIsOneRowOrReserved : Obligations.EveryCoreWordIsOneRowOrReserved := by
  refine ⟨decode_reserved_iff, fun core => ?_⟩
  rcases decodesToClassOrRow core 0#16 with ⟨c, -, hclass⟩ | ⟨i, -, hselects, -⟩
  · rw [selected_length_of_class hclass, hclass]
    rfl
  · have hrow := row_mem_opcodeTable i
    rw [selected_length_of_row hrow hselects, reservedClass_of_selects hrow hselects]
    rfl

/-- Settles O41: the fetch meets the class that the decoder refuses. -/
theorem reservedWordStopsTheStep : Obligations.ReservedWordStopsTheStep := fun _ c hq heven hclass =>
  step_of_fetchDecode_error hq (fetchDecode_reserved heven ((decode_reserved_iff _ _ c).2 hclass))

end Sys2Proof.EncodingProofs

/-! PROOFS. The ALU instructions (40_alu.md): what each writes, its flags in arithmetic, and the shifts as a half and a
double. -/

namespace Sys2Proof.AluProofs

open Sys2Proof.Machine Sys2Proof.Safety Sys2Proof.StateProofs

/-! ### One register written after reads -/

/-- An instruction that reads and then writes one register has written that register alone (R23, R25). -/
theorem regWritten_of_afterReads {rs : List RegNum} {s u : State} (h : AfterReads rs s u) (x : RegNum) (v : Word) :
    RegWritten s (u.writeReg x v) x v := by
  refine ⟨fun n hn => ?_, ?_⟩
  · split
    · next e => rw [e, State.regValue_writeReg_same _ (e ▸ hn)]
    · next hne => rw [State.regValue_writeReg_other _ hne, h.regValue hn]
  · split
    · next e => rw [e, State.writeReg_int, State.setIMask_imask]
    · next hne => rw [State.writeReg_imask _ hne, h.imask]

/-! ### The families: what a next state is, as an effect -/

section Families

variable {rs : List RegNum} {s u : State} (x : RegNum) (src : Operand)

/-- Every ALU instruction after its reads: the result, FS and FZ of it, the pc, the frame, and the flags computed. -/
theorem aluFinish_effect (h : AfterReads rs s u) {r : Word} {f : Flags} (hs : f.fs = signOf r) (hz : f.fz = zeroOf r)
    (len : Word) : ∃ t, aluFinish u x r f len = .next t ∧ LogicEffect s t x r len ∧ t.flags = f := by
  refine ⟨_, aluFinish_next u x r f len,
    ⟨regWritten_of_afterReads h x r, signAndZeroOf_of_flags hs hz, ?_, fun _ => ?_⟩, rfl⟩
  · rw [State.setPc_pc, h.pc]
  · rw [State.setPc_mem, State.setFlags_mem, State.writeReg_mem, h.mem]

theorem afterReads_sources (s : State) :
    AfterReads ([x] ++ operandReads src) s (src.after (s.afterRead x)) :=
  (afterReads_reg s x).trans (afterReads_operand _ src)

/-- ADD and SUB: a flag computation whose FS and FZ are of the result. -/
theorem aluArith_effect {f : Word → Word → Word} {fl : Word → Word → Flags} (hs : ∀ a b, (fl a b).fs = signOf (f a b))
    (hz : ∀ a b, (fl a b).fz = zeroOf (f a b)) (s : State) :
    ∃ t, aluArith f fl x src s = .next t ∧
      LogicEffect s t x (f (s.regValue x) (src.value (s.afterRead x))) src.len ∧
      t.flags = fl (s.regValue x) (src.value (s.afterRead x)) :=
  aluFinish_effect x (afterReads_sources x src s) (hs _ _) (hz _ _) src.len

/-- The six logical and shift instructions after their reads. -/
theorem logicFinish_effect (h : AfterReads rs s u) (r len : Word) :
    ∃ t, logicFinish u x r len = .next t ∧ LogicEffect s t x r len := by
  obtain ⟨t, ht, heffect, -⟩ := aluFinish_effect x h.drawn (f := flagsLogic r u.draws) rfl rfl len
  exact ⟨t, ht, heffect⟩

/-- AND, OR and XOR. -/
theorem aluLogic_effect (f : Word → Word → Word) (s : State) :
    ∃ t, aluLogic f x src s = .next t ∧ LogicEffect s t x (f (s.regValue x) (src.value (s.afterRead x))) src.len :=
  logicFinish_effect x (afterReads_sources x src s) _ _

/-- NOT's bitwise complement is 0xFFFF minus source 2 (R118). -/
theorem aluNot_effect (s : State) :
    ∃ t, aluNot x src s = .next t ∧ LogicEffect s t x (0xFFFF#16 - src.value s) src.len := by
  have hcompl : 0xFFFF#16 - src.value s = ~~~ src.value s := BitVec.allOnes_sub_eq_not _
  rw [hcompl]
  exact logicFinish_effect x (afterReads_operand s src) _ _

theorem aluShift_effect (f : Word → Word) (len : Word) (s : State) :
    ∃ t, aluShift f x len s = .next t ∧ LogicEffect s t x (f (s.regValue x)) len :=
  logicFinish_effect x (afterReads_reg s x) _ _

end Families

/-! ### The flags of ADD and SUB -/

theorem signOf_eq_msb (w : Word) : signOf w = w.msb := (BitVec.msb_eq_getLsbD_last w).symm

theorem flagsAdd_fc_iff (a b : Word) : (flagsAdd a b).fc = true ↔ 65536 ≤ a.toNat + b.toNat := by
  rw [flagsAdd_fc, carryOutOfMsb, decide_eq_true_iff]

theorem flagsAdd_fo_iff (a b : Word) : (flagsAdd a b).fo = true ↔ a.msb = b.msb ∧ (a + b).msb ≠ a.msb := by
  simp only [flagsAdd, signOf_eq_msb, Bool.and_eq_true, beq_iff_eq, bne_iff_ne]

theorem flagsSub_fc_iff (a b : Word) : (flagsSub a b).fc = true ↔ a.toNat < b.toNat := BitVec.ult_iff_toNat_lt

/-- FO of SUB, by the signs (R114), is the library's signed overflow. -/
theorem flagsSub_fo (a b : Word) : (flagsSub a b).fo = a.ssubOverflow b := by
  rw [BitVec.ssubOverflow_eq]
  simp only [flagsSub, signOf_eq_msb]
  cases a.msb <;> cases b.msb <;> simp

theorem flagsSub_fo_iff (a b : Word) :
    (flagsSub a b).fo = true ↔ a.toInt - b.toInt < -32768 ∨ 32767 < a.toInt - b.toInt := by
  rw [flagsSub_fo, BitVec.ssubOverflow, Bool.or_eq_true, decide_eq_true_iff, decide_eq_true_iff]
  omega

/-! ### ADD and SUB, whatever the second source -/

section Arithmetic

variable (s : State) (x : RegNum) (src : Operand)

theorem aluArith_add_effect : ∃ t, aluArith (· + ·) flagsAdd x src s = .next t ∧
    AddEffect s t x (s.regValue x) (src.value (s.afterRead x)) src.len := by
  obtain ⟨t, ht, ⟨hreg, hsz, hpc, hmem⟩, hflags⟩ :=
    aluArith_effect x src (f := (· + ·)) (fl := flagsAdd) (fun _ _ => rfl) (fun _ _ => rfl) s
  exact ⟨t, ht, hreg, hsz, hflags ▸ flagsAdd_fc_iff _ _, hflags ▸ flagsAdd_fo_iff _ _, hpc, hmem⟩

theorem aluArith_sub_effect : ∃ t, aluArith (· - ·) flagsSub x src s = .next t ∧
    SubEffect s t x (s.regValue x) (src.value (s.afterRead x)) src.len := by
  obtain ⟨t, ht, ⟨hreg, hsz, hpc, hmem⟩, hflags⟩ :=
    aluArith_effect x src (f := (· - ·)) (fl := flagsSub) (fun _ _ => rfl) (fun _ _ => rfl) s
  exact ⟨t, ht, hreg, hsz, hflags ▸ flagsSub_fc_iff _ _, hflags ▸ flagsSub_fo_iff _ _, hpc, hmem⟩

end Arithmetic

/-- Settles O16: the effect of ADD at a register and at an immediate second source. -/
theorem addWritesSumAndFlags : Obligations.AddWritesSumAndFlags := fun s x =>
  ⟨fun y => aluArith_add_effect s x (.reg y), fun imm => aluArith_add_effect s x (.imm imm)⟩

/-- Settles O18: the effect of SUB at a register and at an immediate second source. -/
theorem subWritesDifferenceAndFlags : Obligations.SubWritesDifferenceAndFlags := fun s x =>
  ⟨fun y => aluArith_sub_effect s x (.reg y), fun imm => aluArith_sub_effect s x (.imm imm)⟩

/-- Settles O19: the effect of a bitwise operation, at each of the three and at both kinds of second source. -/
theorem bitwiseInstructionsWriteResultSignAndZero : Obligations.BitwiseInstructionsWriteResultSignAndZero := fun s x =>
  ⟨fun y => ⟨aluLogic_effect x (.reg y) (· &&& ·) s, aluLogic_effect x (.reg y) (· ||| ·) s,
      aluLogic_effect x (.reg y) (· ^^^ ·) s⟩,
    fun imm => ⟨aluLogic_effect x (.imm imm) (· &&& ·) s, aluLogic_effect x (.imm imm) (· ||| ·) s,
      aluLogic_effect x (.imm imm) (· ^^^ ·) s⟩⟩

/-- Settles O20: the effect of NOT at a register and at an immediate second source. -/
theorem notWritesComplementOfSourceTwo : Obligations.NotWritesComplementOfSourceTwo := fun s x =>
  ⟨fun y => aluNot_effect x (.reg y) s, fun imm => aluNot_effect x (.imm imm) s⟩

/-! ### The shifts -/

/-- R119's bits are a half. -/
theorem shiftRightOne_toNat (w : Word) : (shiftRightOne w).toNat = w.toNat / 2 := by
  have hshift : shiftRightOne w = w >>> 1 := (BitVec.ushiftRight_eq_extractLsb'_of_lt (by decide)).symm
  rw [hshift, BitVec.toNat_ushiftRight, Nat.shiftRight_eq_div_pow, Nat.pow_one]

/-- R120's bits are a double modulo 2^16. -/
theorem shiftLeftOne_toNat (w : Word) : (shiftLeftOne w).toNat = 2 * w.toNat % 65536 := by
  have hshift : shiftLeftOne w = w <<< 1 := (BitVec.shiftLeft_eq_concat_of_lt (x := w) (n := 1) (by decide)).symm
  rw [hshift, BitVec.toNat_shiftLeft, Nat.shiftLeft_eq, Nat.mul_comm]

/-- LSR in either length: a half is below 2^15, so FS is 0. -/
theorem lsr_effect {s : State} {x : RegNum} {half : Word} (h : half.toNat = (s.regValue x).toNat / 2) (len : Word) :
    ∃ t, aluShift shiftRightOne x len s = .next t ∧ LogicEffect s t x half len ∧ t.flags.fs = false := by
  have hhalf : half = shiftRightOne (s.regValue x) := BitVec.eq_of_toNat_eq (h.trans (shiftRightOne_toNat _).symm)
  obtain ⟨t, ht, heffect⟩ := aluShift_effect x shiftRightOne len s
  rw [← hhalf] at heffect
  have ⟨_, ⟨hsign, _⟩, _⟩ := heffect
  have hsmall : ¬ 32768 ≤ half.toNat := by
    have := (s.regValue x).isLt
    omega
  exact ⟨t, ht, heffect, Bool.eq_false_iff.2 fun e => hsmall (hsign.1 e)⟩

/-- LSL in either length. -/
theorem lsl_effect {s : State} {x : RegNum} {twice : Word} (h : twice.toNat = 2 * (s.regValue x).toNat % 65536)
    (len : Word) : ∃ t, aluShift shiftLeftOne x len s = .next t ∧ LogicEffect s t x twice len := by
  have htwice : twice = shiftLeftOne (s.regValue x) := BitVec.eq_of_toNat_eq (h.trans (shiftLeftOne_toNat _).symm)
  rw [htwice]
  exact aluShift_effect x shiftLeftOne len s

/-- Settles O21: each shift in its two lengths. -/
theorem shiftsMoveByOneBit : Obligations.ShiftsMoveByOneBit := fun _ _ _ _ hhalf htwice =>
  ⟨lsr_effect hhalf 2#16, lsr_effect hhalf 4#16, lsl_effect htwice 2#16, lsl_effect htwice 4#16⟩

end Sys2Proof.AluProofs

/-! PROOFS. Data movement (41_data_movement.md): what MOV and LDW write to their register, and what SDW stores. -/

namespace Sys2Proof.DataMovementProofs

open Sys2Proof.Machine Sys2Proof.Safety Sys2Proof.StateProofs Sys2Proof.MemoryProofs Sys2Proof.AluProofs

/-! ### The families: what a next state is, as an effect -/

section Families

variable {s : State} (x : RegNum) (src : Operand)

/-- MOV and LDW after their reads: one register written, the pc advanced, flags and memory as they were. -/
theorem moveEffect_of_afterReads {rs : List RegNum} {u : State} (h : AfterReads rs s u) (v len : Word) :
    MoveEffect s ((u.writeReg x v).setPc (s.pc + len)) x v len := by
  refine ⟨regWritten_of_afterReads h x v, ?_, State.setPc_pc _ _, fun _ => ?_⟩
  · rw [State.setPc_flags, State.writeReg_flags, h.flags]
  · rw [State.setPc_mem, State.writeReg_mem, h.mem]

theorem moveOp_effect (s : State) :
    ∃ t, moveOp x src s = .next t ∧ MoveEffect s t x (src.value s) src.len :=
  ⟨_, rfl, moveEffect_of_afterReads x (afterReads_operand s src) _ _⟩

theorem loadOp_effect (heven : isOdd (src.value s) = false) :
    ∃ t, loadOp x src s = .next t ∧ MoveEffect s t x (wordAt s (src.value s)) src.len :=
  ⟨_, loadOp_even heven x, moveEffect_of_afterReads x (afterReads_operand s src) _ _⟩

/-- SDW stores the value that its data register has once the address is read (log 22). -/
theorem storeOp_effect (heven : isOdd (src.value s) = false) :
    ∃ t, storeOp x src s = .next t ∧ WordStored s t (src.value s) ((src.after s).regValue x) ∧
      RegsSame s t ∧ t.flags = s.flags ∧ t.pc = s.pc + src.len := by
  have hr := (afterReads_operand s src).trans (afterReads_reg (src.after s) x)
  exact ⟨_, storeOp_even heven x, wordStored_of_mem rfl, ⟨fun _ => hr.regValue, hr.imask⟩, hr.flags, rfl⟩

end Families

/-- Settles O23: the effect of LDW with its address in a register and in the immediate word. -/
theorem ldwLoadsTheAddressedWord : Obligations.LdwLoadsTheAddressedWord := fun _ x =>
  ⟨fun y => loadOp_effect x (.reg y), fun addr => loadOp_effect x (.imm addr)⟩

/-- Settles O24: the effect of SDW with its address in a register and in the immediate word. -/
theorem sdwStoresAtTheAddressedWord : Obligations.SdwStoresAtTheAddressedWord := fun _ x =>
  ⟨fun y => storeOp_effect x (.reg y), fun addr => storeOp_effect x (.imm addr)⟩

/-- Settles O22: the effect of MOV from a register and from the immediate word. -/
theorem movCopiesWithoutTouchingFlags : Obligations.MovCopiesWithoutTouchingFlags := fun s x =>
  ⟨fun y => moveOp_effect x (.reg y) s, fun imm => moveOp_effect x (.imm imm) s⟩

end Sys2Proof.DataMovementProofs

/-! PROOFS. Control flow (42_control_flow.md): jumps and branches, a CALL and the RET that undoes it, and what the branch
conditions find after an ALU instruction. -/

namespace Sys2Proof.ControlFlowProofs

open Sys2Proof.Machine Sys2Proof.Safety Sys2Proof.StateProofs Sys2Proof.MemoryProofs Sys2Proof.AluProofs

/-! ### FZ and FS after an instruction -/

section SignAndZero

variable {s t : State}

/-- The end of every ALU instruction sets FS and FZ of its result when the flags it is given are of that result. -/
theorem signAndZeroOf_of_aluFinish {u : State} {x : RegNum} {r len : Word} {f : Flags}
    (h : aluFinish u x r f len = .next t) (hs : f.fs = signOf r) (hz : f.fz = zeroOf r) : SignAndZeroOf t r := by
  rw [aluFinish_next] at h
  cases h
  exact signAndZeroOf_of_flags hs hz

/-- R112: every ALU instruction sets FS and FZ of one and the same result. -/
theorem signAndZeroOf_of_isAlu {i : Instr} (halu : isAlu i = true) (h : exec i s = .next t) : ∃ r, SignAndZeroOf t r := by
  cases i with
  | addReg _ _ | addImm _ _ | subReg _ _ | subImm _ _ | andReg _ _ | andImm _ _ | orReg _ _ | orImm _ _ | xorReg _ _
  | xorImm _ _ | notReg _ _ | notImm _ _ | lsrReg _ | lsrImm _ | lslReg _ | lslImm _ =>
    exact ⟨_, signAndZeroOf_of_aluFinish h rfl rfl⟩
  | _ => cases halu

/-- A result of 0 has bit 15 clear (R148). -/
theorem not_zero_and_sign_of_result {r : Word} (h : SignAndZeroOf t r) : ¬(t.flags.fz = true ∧ t.flags.fs = true) := by
  obtain ⟨hsign, hzero⟩ := h
  rw [hsign, hzero]
  omega

end SignAndZero

/-- Settles O47: the instruction that the step runs either leaves the flags alone or sets FS and FZ of one result, and the
interrupt check leaves them alone. -/
theorem stepKeepsZeroAndSignExclusive : Obligations.StepKeepsZeroAndSignExclusive := by
  intro s t hs h
  obtain ⟨i, -, hexec⟩ := step_next h
  cases halu : isAlu i with
  | true =>
    obtain ⟨r, hr⟩ := signAndZeroOf_of_isAlu halu hexec
    exact not_zero_and_sign_of_result hr
  | false =>
    rwa [onlyAluInstructionsWriteFlags _ _ _ halu hexec, State.sampled_flags]

/-! ### The signed order of the operands of a SUB -/

section SubOrder

/-- Bit 15 of a result is its sign as a signed number. -/
theorem fs_iff_toInt_neg {t : State} {r : Word} (h : SignAndZeroOf t r) : t.flags.fs = true ↔ r.toInt < 0 := by
  obtain ⟨hs, -⟩ := h
  rw [hs, BitVec.toInt_neg_iff]
  omega

theorem fz_iff_eq_zero {t : State} {r : Word} (h : SignAndZeroOf t r) : t.flags.fz = true ↔ r = 0#16 := by
  obtain ⟨-, hz⟩ := h
  rw [hz, ← BitVec.toNat_inj, BitVec.toNat_ofNat]

variable {a b : Word}

theorem sub_neg_iff_of_inRange (h : -32768 ≤ a.toInt - b.toInt ∧ a.toInt - b.toInt ≤ 32767) :
    (a - b).toInt < 0 ↔ a.toInt < b.toInt := by
  have hexact : (a - b).toInt = a.toInt - b.toInt := by
    rw [BitVec.toInt_sub]
    exact Int.bmod_eq_of_le (by omega) (by omega)
  rw [hexact, sub_neg]

/-- A signed difference out of range wraps by 2^16, to the other sign. -/
theorem sub_neg_iff_of_outOfRange (h : ¬(-32768 ≤ a.toInt - b.toInt ∧ a.toInt - b.toInt ≤ 32767)) :
    (a - b).toInt < 0 ↔ b.toInt < a.toInt := by
  have := BitVec.le_toInt a
  have := BitVec.toInt_lt (x := a)
  have := BitVec.le_toInt b
  have := BitVec.toInt_lt (x := b)
  rw [BitVec.toInt_sub, Int.bmod_def]
  omega

/-- FS and FZ of the difference order the operands as R148 says. -/
theorem subOrder_of_signAndZeroOf {t : State} (h : SignAndZeroOf t (a - b)) : SubOrder t a b := by
  have hfs := fs_iff_toInt_neg h
  have hfz : t.flags.fz = true ↔ a = b := (fz_iff_eq_zero h).trans sub_eq_zero
  refine ⟨hfz, fun hin => ?_, fun hout => ?_⟩
  · rw [sub_neg_iff_of_inRange hin] at hfs
    rw [← Bool.not_eq_true, ← Bool.not_eq_true, hfz, hfs, ← BitVec.toInt_inj]
    exact ⟨by omega, Iff.rfl⟩
  · rw [sub_neg_iff_of_outOfRange hout] at hfs
    rw [← Bool.not_eq_true, ← Bool.not_eq_true, hfz, hfs, ← BitVec.toInt_inj]
    exact ⟨by omega, Iff.rfl⟩

end SubOrder

/-- Settles O28: either form sets FS and FZ of the difference, whose sign wraps exactly out of range. -/
theorem subOrdersOperandsUnlessItOverflows : Obligations.SubOrdersOperandsUnlessItOverflows := fun _ _ _ =>
  ⟨fun _ h => subOrder_of_signAndZeroOf (signAndZeroOf_of_aluFinish h rfl rfl),
    fun _ h => subOrder_of_signAndZeroOf (signAndZeroOf_of_aluFinish h rfl rfl)⟩

/-! ### JMP and the branches -/

theorem condBNE_iff (f : Flags) : condBNE f = true ↔ f.fz = false := by
  rw [condBNE, Bool.not_eq_true']

theorem condBGT_iff (f : Flags) : condBGT f = true ↔ f.fz = false ∧ f.fs = false := by
  rw [condBGT, Bool.and_eq_true, Bool.not_eq_true', Bool.not_eq_true']

section Families

variable {s : State}

/-- JMP and the branches go to the target or past the instruction, by the condition `p` that they test (R140). -/
theorem branchOp_effect {taken : Flags → Bool} {p : Prop} [Decidable p] (hp : taken s.flags = true ↔ p)
    (target : Operand) :
    ∃ t, branchOp taken target s = .next t ∧ JumpEffect s t (if p then target.value s else s.pc + target.len) := by
  have hr := afterReads_operand s target
  refine ⟨_, rfl, ?_, ⟨fun _ => hr.regValue, hr.imask⟩, hr.flags, fun _ => ?_⟩
  · simp only [State.setPc_pc, hp, npc]
  · rw [State.setPc_mem, hr.mem]

theorem jmp_effect (target : Operand) :
    ∃ t, branchOp (fun _ => true) target s = .next t ∧ JumpEffect s t (target.value s) :=
  branchOp_effect (p := True) (by simp) target

/-! ### CALL and RET -/

/-- CALL at an even SP. -/
theorem callOp_effect (heven : isOdd (s.regValue regSP) = false) (target : Operand) :
    ∃ t, callOp target s = .next t ∧ PushEffect s t (s.pc + target.len) ∧ t.pc = target.value s :=
  ⟨_, callOp_even heven target, pushEffect_of_afterReads (afterReads_operand s target) _ _, rfl⟩

/-- A CALL that completes found an even SP and has pushed the address after it. -/
theorem pushEffect_of_callOp {t : State} {target : Operand} (h : callOp target s = .next t) :
    isOdd (s.regValue regSP) = false ∧ PushEffect s t (s.pc + target.len) := by
  cases ho : isOdd (s.regValue regSP) with
  | true => rw [callOp_odd ho] at h; cases h
  | false =>
    obtain ⟨u, hu, hpush, -⟩ := callOp_effect ho target
    rw [hu] at h
    cases h
    exact ⟨rfl, hpush⟩

/-- RET at an even SP. -/
theorem execRet_effect (heven : isOdd (s.regValue regSP) = false) :
    ∃ t, execRet s = .next t ∧ t.pc = wordAt s (pullAddr s) ∧ RegWritten s t regSP (pullAddr s) ∧
      t.flags = s.flags ∧ MemorySame s t :=
  ⟨_, execRet_even heven, rfl, regWritten_of_afterReads (afterReads_none s) regSP _, by simp, fun _ => by simp⟩

/-- A RET that follows a push goes to the pushed word, and SP and every other register are as before the push. -/
theorem execRet_of_pushEffect {t : State} {v : Word} (h : PushEffect s t v)
    (heven : isOdd (s.regValue regSP) = false) :
    ∃ u, execRet t = .next u ∧ u.pc = v ∧ RegsSame s u ∧ u.flags = s.flags := by
  have haddr := pullAddr_of_pushEffect h
  have heven' : isOdd (t.regValue regSP) = false := by rw [← isOdd_add_slot, ← pullAddr, haddr, heven]
  obtain ⟨hstored, hsp, hflags⟩ := h
  refine ⟨_, execRet_even heven', ?_, ⟨fun n hn => ?_, ?_⟩, ?_⟩
  · rw [State.setPc_pc, haddr, readWord_of_wordStored hstored]
  · rw [State.regValue_setPc, haddr, regValue_writeReg_of_regWritten hsp hn]
  · rw [State.setPc_imask, State.writeReg_imask _ (by decide)]
    exact hsp.2
  · rw [State.setPc_flags, State.writeReg_flags, hflags]

/-- A RET right after a CALL that completed. -/
theorem execRet_after_callOp {t : State} {target : Operand} (h : callOp target s = .next t) :
    ∃ u, execRet t = .next u ∧ u.pc = s.pc + target.len ∧ RegsSame s u ∧ u.flags = s.flags := by
  obtain ⟨heven, hpush⟩ := pushEffect_of_callOp h
  exact execRet_of_pushEffect hpush heven

end Families

/-- Settles O25: the effect of JMP with its target in a register and in the immediate word. -/
theorem jmpGoesToItsTarget : Obligations.JmpGoesToItsTarget := fun _ =>
  ⟨fun x => jmp_effect (.reg x), fun imm => jmp_effect (.imm imm)⟩

/-- Settles O26: the effect of a branch, with the conditions of BRE and of BNE. -/
theorem breAndBneTestTheZeroFlag : Obligations.BreAndBneTestTheZeroFlag := fun _ =>
  ⟨fun x => ⟨branchOp_effect (taken := condBRE) Iff.rfl (.reg x), branchOp_effect (condBNE_iff _) (.reg x)⟩,
    fun imm => ⟨branchOp_effect (taken := condBRE) Iff.rfl (.imm imm), branchOp_effect (condBNE_iff _) (.imm imm)⟩⟩

/-- Settles O27: the effect of a branch, with the conditions of BGT and of BLS. -/
theorem bgtAndBlsTestTheSignFlag : Obligations.BgtAndBlsTestTheSignFlag := fun _ =>
  ⟨fun x => ⟨branchOp_effect (condBGT_iff _) (.reg x), branchOp_effect (taken := condBLS) Iff.rfl (.reg x)⟩,
    fun imm => ⟨branchOp_effect (condBGT_iff _) (.imm imm), branchOp_effect (taken := condBLS) Iff.rfl (.imm imm)⟩⟩

/-- Settles O29: the effect of CALL with its target in a register and in the immediate word. -/
theorem callPushesReturnAddressAndJumps : Obligations.CallPushesReturnAddressAndJumps := fun _ heven =>
  ⟨fun x => callOp_effect heven (.reg x), fun imm => callOp_effect heven (.imm imm)⟩

/-- Settles O30: the slot that a pull loads from is the one above SP. -/
theorem retPullsThePc : Obligations.RetPullsThePc := fun _ heven => execRet_effect heven

/-- Settles O31: the RET pulls the address that the CALL pushed. -/
theorem retUndoesCall : Obligations.RetUndoesCall := fun _ _ =>
  ⟨fun x h => execRet_after_callOp (target := .reg x) h, fun imm h => execRet_after_callOp (target := .imm imm) h⟩

/-- Settles O42: the JMP completes whatever its target, and keeps the mask, so that only the next fetch stops. -/
theorem jumpToOddTargetStopsAtTheNextFetch : Obligations.JumpToOddTargetStopsAtTheNextFetch := by
  intro s target hodd hmask
  refine ⟨s.setPc target, rfl, oddPcStopsTheFetch (s.setPc target) ?_ hodd⟩
  rw [State.setPc_imask, hmask, BitVec.and_zero]

end Sys2Proof.ControlFlowProofs

/-! PROOFS. The stack (43_stack.md): what a PUSH stores, and what a PULL loads and writes. -/

namespace Sys2Proof.StackProofs

open Sys2Proof.Machine Sys2Proof.Safety Sys2Proof.StateProofs Sys2Proof.MemoryProofs Sys2Proof.AluProofs

/-- A register other than x0 written, and then any register: the later write stands where the two meet. -/
theorem regWritten_trans {s t u : State} {k x : RegNum} {a v : Word} (hk : k ≠ regINT) (h : RegWritten s t k a)
    (h' : RegWritten t u x v) :
    (∀ n, n ≠ regINT → u.regValue n = if n = x then v else if n = k then a else s.regValue n) ∧
      u.imask = if x = regINT then loByte v else s.imask := by
  obtain ⟨hregs, himask⟩ := h
  obtain ⟨hregs', himask'⟩ := h'
  exact ⟨fun n hn => by rw [hregs' n hn, hregs n hn], by rw [himask', himask, if_neg hk]⟩

/-- Settles O32: at an even SP the PUSH completes, and what it then leaves is a push of the register's value. -/
theorem pushStoresAtSpAndMovesIt : Obligations.PushStoresAtSpAndMovesIt := fun s x heven =>
  ⟨_, execPush_even heven x, pushEffect_of_afterReads (afterReads_reg s x) _ _, rfl⟩

/-- Settles O33: at an even SP the PULL writes SP and then its register, and `PullToSP` comes before any access. -/
theorem pullLoadsAboveSpAndMovesIt : Obligations.PullLoadsAboveSpAndMovesIt := by
  intro s x
  refine ⟨fun hx heven => ?_, fun hx => hx ▸ execPull_sp s⟩
  have hsp : RegWritten s (s.writeReg regSP (pullAddr s)) regSP (pullAddr s) :=
    regWritten_of_afterReads (afterReads_none s) _ _
  obtain ⟨hregs, himask⟩ := regWritten_trans (by decide) hsp
    (regWritten_of_afterReads (afterReads_none _) x (wordAt s (pullAddr s)))
  refine ⟨_, execPull_even hx heven, hregs, himask, ?_, rfl, fun _ => ?_⟩
  · rw [State.setPc_flags, State.writeReg_flags, State.writeReg_flags]
  · rw [State.setPc_mem, State.writeReg_mem, State.writeReg_mem]

end Sys2Proof.StackProofs

/-! PROOFS. The system instruction (44_system.md): INT stops, however the core comes to run it. -/

namespace Sys2Proof.SystemProofs

open Sys2Proof.Machine Sys2Proof.Safety Sys2Proof.MemoryProofs

/-- R170: INT stops whatever the state. -/
theorem exec_int (s : State) : exec .int s = .refused .softwareInterrupt := rfl

/-- Settles O36: the step that fetches INT is `exec .int` at the sampled state, and INT stops in that state too. -/
theorem intEndsTheRun : Obligations.IntEndsTheRun := by
  intro s
  refine ⟨exec_int s, fun hq heven hint => ?_⟩
  have hfetch : fetchDecode s = .ok .int := fetchDecode_instr heven (hint (fetchedImm s))
  exact (step_of_fetchDecode_ok hq hfetch).trans (exec_int s.sampled)

end Sys2Proof.SystemProofs

/-! PROOFS. The stops of a step (60_exceptions.md): how an instruction and how a step can end, and from these the table of
R181, the interrupt check of R184 and the order of R193. -/

namespace Sys2Proof.ExceptionProofs

open Sys2Proof.Machine Sys2Proof.Safety Sys2Proof.MemoryProofs Sys2Proof.EncodingProofs Sys2Proof.SystemProofs

variable {s : State}

/-! ### The interrupt check -/

/-- Settles O38: of all that a step can do, only the interrupt check applies. -/
theorem enabledInterruptStopsBeforeFetch : Obligations.EnabledInterruptStopsBeforeFetch := by
  intro s hset
  rcases step_cases s with ⟨-, hstep⟩ | ⟨hquiet, -⟩
  · exact hstep
  · exact absurd hquiet hset

/-! ### Fetch and decode -/

/-- The fetch gives 0 for the second word where it does not read it, and there the decoder does not look at it (R83). -/
theorem decode_fetchedImm (s : State) :
    decode (wordAt s s.pc) (fetchedImm s) = decode (wordAt s s.pc) (wordAt s (s.pc + 2#16)) := by
  cases hi : fieldI (wordAt s s.pc) with
  | true => exact congrArg (decode _) (if_pos hi)
  | false => exact decode_imm_irrelevant _ _ _ hi

/-- The fetch at an even pc gives the instruction that the two words at pc decode to. -/
theorem fetchDecode_ok {i : Instr} (heven : isOdd s.pc = false)
    (hd : decode (wordAt s s.pc) (wordAt s (s.pc + 2#16)) = .instr i) : fetchDecode s = .ok i :=
  fetchDecode_instr heven ((decode_fetchedImm s).trans hd)

/-- All that fetch and decode can do. -/
theorem fetchDecode_cases (s : State) :
    (isOdd s.pc = true ∧ fetchDecode s = .error (.misalignedFetch s.pc)) ∨
      ((reservedClass (wordAt s s.pc)).isSome = true ∧
        fetchDecode s = .error (.reservedInstruction (wordAt s s.pc))) ∨
      ∃ i, decode (wordAt s s.pc) (wordAt s (s.pc + 2#16)) = .instr i ∧ fetchDecode s = .ok i := by
  cases hpc : isOdd s.pc with
  | true => exact .inl ⟨rfl, fetchDecode_odd hpc⟩
  | false =>
    cases hd : decode (wordAt s s.pc) (wordAt s (s.pc + 2#16)) with
    | reserved c =>
      have hclass : reservedClass (wordAt s s.pc) = some c := (decode_reserved_iff _ _ c).1 hd
      exact .inr (.inl ⟨by rw [hclass, Option.isSome_some],
        fetchDecode_reserved hpc ((decode_fetchedImm s).trans hd)⟩)
    | instr i => exact .inr (.inr ⟨i, rfl, fetchDecode_ok hpc hd⟩)

/-- A list of bytes that decodes to an instruction holds the words that the decoder makes it from. -/
theorem decode_of_decodeBytes {b0 b1 : Byte} {bs rest : List Byte} {i : Instr}
    (h : decodeBytes (b0 :: b1 :: bs) = .ok i rest) : decode (wordOfBytes b0 b1) (nextWord bs) = .instr i := by
  cases hd : decode (wordOfBytes b0 b1) (nextWord bs) with
  | reserved c => simp [decodeBytes, hd] at h
  | instr j =>
    simp only [decodeBytes, hd] at h
    split at h
    · split at h
      · cases h; rfl
      · cases h
    · cases h; rfl

/-- Settles O37: the four bytes from pc are the two words that the fetch decodes. -/
theorem stepRunsTheDecodedInstruction : Obligations.StepRunsTheDecodedInstruction := by
  intro s i rest hquiet heven hbytes
  have hsecond : s.pc + 3#16 = s.pc + 2#16 + 1#16 := (BitVec.add_assoc s.pc 2#16 1#16).symm
  rw [hsecond] at hbytes
  have hd : decode (wordAt s s.pc) (wordAt s (s.pc + 2#16)) = .instr i :=
    decode_of_decodeBytes hbytes
  exact ⟨step_of_fetchDecode_ok hquiet (fetchDecode_ok heven hd), rfl, rfl, rfl, rfl, rfl⟩

/-! ### How an instruction ends -/

/-- The ends of an instruction (R181): it goes on, or it stops in one of the three ways that the table gives to
instructions. -/
inductive InstrEnd (s : State) (i : Instr) : Host.Outcome State Fault Refusal → Prop where
  | next (t : State) : InstrEnd s i (.next t)
  | misalignedData (a : Word) (hodd : isOdd a = true) (haddr : accessAddress s i = some a) :
      InstrEnd s i (.fault (.misalignedData a))
  | pullToSP (hpull : i = .pull regSP) : InstrEnd s i (.fault .pullToSP)
  | softwareInterrupt (hint : i = .int) : InstrEnd s i (.refused .softwareInterrupt)

/-- An instruction whose only stop is at an odd address of the word it accesses. -/
theorem InstrEnd.of_access {i : Instr} {a : Word} {o : Host.Outcome State Fault Refusal}
    (haddr : accessAddress s i = some a) (hodd : isOdd a = true → o = .fault (.misalignedData a))
    (heven : isOdd a = false → ∃ t, o = .next t) : InstrEnd s i o := by
  cases ha : isOdd a with
  | true => exact hodd ha ▸ .misalignedData a ha haddr
  | false =>
    obtain ⟨t, rfl⟩ := heven ha
    exact .next t

section Families

variable {i : Instr} (x : RegNum) (src : Operand)

theorem loadOp_end (haddr : accessAddress s i = some (src.value s)) : InstrEnd s i (loadOp x src s) :=
  .of_access haddr (fun h => loadOp_odd h x) fun h => ⟨_, loadOp_even h x⟩

theorem storeOp_end (haddr : accessAddress s i = some (src.value s)) : InstrEnd s i (storeOp x src s) :=
  .of_access haddr (fun h => storeOp_odd h x) fun h => ⟨_, storeOp_even h x⟩

theorem callOp_end (haddr : accessAddress s i = some (s.regValue regSP)) : InstrEnd s i (callOp src s) :=
  .of_access haddr (fun h => callOp_odd h src) fun h => ⟨_, callOp_even h src⟩

theorem execPush_end : InstrEnd s (.push x) (execPush x s) :=
  .of_access rfl (fun h => execPush_odd h x) fun h => ⟨_, execPush_even h x⟩

theorem isOdd_pullAddr (s : State) : isOdd (pullAddr s) = isOdd (s.regValue regSP) := isOdd_add_slot _

theorem execRet_end : InstrEnd s .ret (execRet s) :=
  .of_access (a := pullAddr s) rfl (fun h => execRet_odd (isOdd_pullAddr s ▸ h)) fun h =>
    ⟨_, execRet_even (isOdd_pullAddr s ▸ h)⟩

theorem execPull_end : InstrEnd s (.pull x) (execPull x s) := by
  by_cases hx : x = regSP
  · rw [hx, execPull_sp]
    exact .pullToSP rfl
  · exact .of_access (a := pullAddr s) rfl (fun h => execPull_odd hx (isOdd_pullAddr s ▸ h)) fun h =>
      ⟨_, execPull_even hx (isOdd_pullAddr s ▸ h)⟩

end Families

/-- Every instruction ends in one of these ways: the ALU instructions, MOV, JMP and the branches go on always, the
instructions that access memory unless their address is odd. -/
theorem exec_end (i : Instr) (s : State) : InstrEnd s i (exec i s) := by
  cases i with
  | movReg _ _ | movImm _ _ => exact .next _
  | addReg _ _ | addImm _ _ | subReg _ _ | subImm _ _ | andReg _ _ | andImm _ _ | orReg _ _ | orImm _ _ | xorReg _ _
  | xorImm _ _ | notReg _ _ | notImm _ _ | lsrReg _ | lsrImm _ | lslReg _ | lslImm _ => exact .next _
  | jmpReg _ | jmpImm _ | breReg _ | breImm _ | bneReg _ | bneImm _ | bgtReg _ | bgtImm _ | blsReg _ | blsImm _ =>
    exact .next _
  | ldwReg x y => exact loadOp_end x (.reg y) rfl
  | ldwImm x imm => exact loadOp_end x (.imm imm) rfl
  | sdwReg x y => exact storeOp_end x (.reg y) rfl
  | sdwImm x imm => exact storeOp_end x (.imm imm) rfl
  | callReg x => exact callOp_end (.reg x) rfl
  | callImm imm => exact callOp_end (.imm imm) rfl
  | ret => exact execRet_end
  | push x => exact execPush_end x
  | pull x => exact execPull_end x
  | int => exact exec_int s ▸ .softwareInterrupt rfl

/-! ### How a step ends -/

/-- The ends of a step, in the order of R193: the interrupt check, the fetch, the decoder, or the instruction that the
words at pc decode to, in the state after the sample. -/
inductive StepEnd (s : State) : Host.Outcome State Fault Refusal → Prop where
  | interruptEntry (hset : s.iflags &&& s.imask ≠ 0#8) : StepEnd s (.fault (.interruptEntry (s.iflags &&& s.imask)))
  | misalignedFetch (hodd : isOdd s.pc = true) : StepEnd s (.fault (.misalignedFetch s.pc))
  | reservedInstruction (hclass : (reservedClass (wordAt s s.pc)).isSome = true) :
      StepEnd s (.fault (.reservedInstruction (wordAt s s.pc)))
  | instr {o : Host.Outcome State Fault Refusal} (i : Instr)
      (hd : decode (wordAt s s.pc) (wordAt s (s.pc + 2#16)) = .instr i) (hend : InstrEnd s.sampled i o) : StepEnd s o

theorem step_end (s : State) : StepEnd s (step s) := by
  by_cases hquiet : s.iflags &&& s.imask = 0#8
  · rcases fetchDecode_cases s with ⟨hodd, hf⟩ | ⟨hclass, hf⟩ | ⟨i, hd, hf⟩
    · exact step_of_fetchDecode_error hquiet hf ▸ .misalignedFetch hodd
    · exact step_of_fetchDecode_error hquiet hf ▸ .reservedInstruction hclass
    · exact step_of_fetchDecode_ok hquiet hf ▸ .instr i hd (exec_end i s.sampled)
  · exact enabledInterruptStopsBeforeFetch s hquiet ▸ .interruptEntry hquiet

/-- A known outcome of a step is one of the ends of a step. -/
theorem stepEnd_of_step {o : Host.Outcome State Fault Refusal} (h : step s = o) : StepEnd s o := h ▸ step_end s

/-- Settles O43: each stop has one end of a step that it can come from. -/
theorem everyStopOfAStepIsListed : Obligations.EveryStopOfAStepIsListed := by
  refine fun s => ⟨fun b h => ?interrupt, fun p h => ?fetch, fun w h => ?reserved, fun a h => ?data, fun h => ?pull,
    fun r h => ?refusal⟩
  case interrupt =>
    cases stepEnd_of_step h with
    | interruptEntry hset => exact ⟨rfl, hset⟩
    | instr i hd hend => cases hend
  case fetch =>
    cases stepEnd_of_step h with
    | misalignedFetch hodd => exact ⟨rfl, hodd⟩
    | instr i hd hend => cases hend
  case reserved =>
    cases stepEnd_of_step h with
    | reservedInstruction hclass => exact ⟨rfl, hclass⟩
    | instr i hd hend => cases hend
  case data =>
    cases stepEnd_of_step h with
    | instr i hd hend =>
      cases hend with
      | misalignedData _ hodd haddr => exact ⟨hodd, i, hd, haddr⟩
  case pull =>
    cases stepEnd_of_step h with
    | instr i hd hend =>
      cases hend with
      | pullToSP hpull => exact hpull ▸ hd
  case refusal =>
    cases stepEnd_of_step h with
    | instr i hd hend =>
      cases hend with
      | softwareInterrupt hint => exact ⟨rfl, hint ▸ hd⟩

/-- Settles O39: an interrupt entry carries the enabled set flags, and a zero mask enables none. -/
theorem zeroMaskNeverEntersAnInterrupt : Obligations.ZeroMaskNeverEntersAnInterrupt := by
  intro s b hmask h
  obtain ⟨hentry, -⟩ := everyStopOfAStepIsListed s
  obtain ⟨hb, hset⟩ := hentry b h
  rw [hmask, BitVec.and_zero] at hb
  exact hset hb

end Sys2Proof.ExceptionProofs

/-! PROOFS. The release of the core (70_reset_and_hazards.md R200, R201): what holds whatever the loaded image and the
elements left unspecified are, and the first step. -/

namespace Sys2Proof.ResetProofs

open Sys2Proof.Machine Sys2Proof.Safety Sys2Proof.MemoryProofs Sys2Proof.ExceptionProofs

section Launch

variable (g : Vector Word 15) (f : Flags) (m : Memory) (irq : List Byte)

@[simp] theorem launch_pc : (State.launch g f m irq).pc = 0x0000#16 := rfl
@[simp] theorem launch_imask : (State.launch g f m irq).imask = 0x00#8 := rfl

/-- No interrupt precedes the first instruction (R200): the mask at release enables none, whatever is presented. -/
theorem launch_quiet : (State.launch g f m irq).iflags &&& (State.launch g f m irq).imask = 0#8 := by
  rw [launch_imask, BitVec.and_zero]

/-- Address 0 is aligned, so the first fetch does not stop. -/
theorem launch_pc_even : isOdd (State.launch g f m irq).pc = false := by
  rw [launch_pc]
  decide

end Launch

/-- Settles O13: at release the interrupt check is quiet and pc is even, so the first step runs what the words at pc, which
is 0, decode to. -/
theorem releasedCoreStartsAtAddressZero : Obligations.ReleasedCoreStartsAtAddressZero :=
  fun g f m irq _ => ⟨launch_pc g f m irq, launch_imask g f m irq, fun hdecode =>
    step_of_fetchDecode_ok (launch_quiet g f m irq) (fetchDecode_ok (launch_pc_even g f m irq) hdecode)⟩

end Sys2Proof.ResetProofs
